-- ==== Sys2Proof/Word.lean ====
section
/-! DEFINITION. The word types of the model: 64-bit register contents and addresses, 32-bit
instruction words, bytes (10_state.md R20, R21; 30_encoding.md R43). -/

namespace Sys2Proof

/-- Contents of a general register, of the program counter, of the virtual count: `bits(64)`. -/
abbrev Word := BitVec 64

/-- One instruction: a 32-bit word (30_encoding.md R43). -/
abbrev InsnWord := BitVec 32

/-- One byte of memory. -/
abbrev Byte := BitVec 8

/-- A general register number, `UInt(Rt)` in `0 .. 31` (30_encoding.md R46). -/
abbrev RegNum := Fin 32

end Sys2Proof
end

