-- ==== Sys2Proof/Machine/Types.lean ====
section
/-! DEFINITION. The types of the machine's parts: Exception levels, asynchronous exceptions, events,
the low-power record, the state of one PE, the moves of the agents. Types only, no function. -/

namespace Sys2Proof.Machine

/-- The Exception levels, EL0 < EL1 < EL2 < EL3 (10_state.md R23, 60_exceptions.md R108). -/
inductive EL
  | el0 | el1 | el2 | el3
deriving DecidableEq, Repr, Inhabited

/-- The type of an asynchronous exception (10_state.md R25). -/
inductive ExcType
  | serror | irq | fiq
deriving DecidableEq, Repr, Inhabited

/-- A pending asynchronous exception: its class (`PHYS`, `VIRT`, `DELEG`), its type, and whether it
has Superpriority. A delegated exception is an SError and has no Superpriority (10_state.md R25).
For an SError of the other classes the Superpriority entry means nothing and no rule reads it. -/
inductive AsyncExc
  | physical (type : ExcType) (superpriority : Bool)
  | virtual (type : ExcType) (superpriority : Bool)
  | delegated
deriving DecidableEq, Repr, Inhabited

/-- The marking of an exception in its masking table: A, B, or neither (00_scope.md R6). -/
inductive Mark
  | a | b | other
deriving DecidableEq, Repr, Inhabited

/-- The causes of the events that travel through INFLIGHT (10_state.md R14, R19). The target PE is
the other half of the pair, so `STREAM(p)`, `MONITOR(p)` and `IMPDEF(p)` need no argument here.
The causes `SEVL(p)` and `ERET(p)` never travel and have no constructor. -/
inductive Cause
  | sev (sender : Nat) | stream | monitor | impdef
deriving DecidableEq, Repr, Inhabited

/-- The four waiting instructions, as the cause of a trap (60_exceptions.md R111). -/
inductive WFx
  | wfe | wfet | wfi | wfit
deriving DecidableEq, Repr, Inhabited

/-- What a PE is doing (10_state.md R16). -/
inductive LpKind
  /-- executing instructions -/
  | run
  /-- suspended by a WFE or WFET that has not completed -/
  | wfe
  /-- suspended by a WFI or WFIT that has not completed -/
  | wfi
  /-- powered down, architectural state lost -/
  | off
deriving DecidableEq, Repr, Inhabited

/-- The low-power record `LP[p]` (10_state.md R16). -/
structure LowPower where
  kind    : LpKind
  /-- the threshold of a suspended WFET or WFIT -/
  timeout : Option Word
  /-- the target of a delayed trap (FEAT_TWED, 60_exceptions.md R114) -/
  trap    : Option EL
deriving DecidableEq, Repr, Inhabited

/-- `PSTATE.{A, I, F}`; 0 means not masked (10_state.md R22). -/
structure Masks where
  a : BitVec 1
  i : BitVec 1
  f : BitVec 1
deriving DecidableEq, Repr, Inhabited

/-- The control fields (10_state.md R24), each an abstract field and not bits of a register word
(92_eei_decisions.md D10). -/
structure Controls where
  /-- `SCTLR_EL1.nTWE` -/
  nTWE   : BitVec 1
  /-- `SCTLR_EL1.nTWI`, as the table of 60_exceptions.md R112 names it -/
  nTWI   : BitVec 1
  /-- `HCR_EL2.TWE` -/
  hcrTWE : BitVec 1
  /-- `HCR_EL2.TWI`, as the table of R112 names it -/
  hcrTWI : BitVec 1
  /-- `SCR_EL3.TWE`, as the table of R112 names it -/
  scrTWE : BitVec 1
  /-- `SCR_EL3.TWI`, as the table of R112 names it -/
  scrTWI : BitVec 1
  /-- a FEAT_TWED delay is configured for WFE and WFET traps to EL1 (R114, R115) -/
  delayEL1 : Bool
  /-- the same for traps to EL2 -/
  delayEL2 : Bool
  /-- the same for traps to EL3 -/
  delayEL3 : Bool
  /-- `EDSCR.INTdis`, as the exceptions it disables -/
  intDis : List AsyncExc
  /-- `OSDLR_EL1.DLK` -/
  dlk    : BitVec 1
deriving DecidableEq, Repr, Inhabited

/-- The architectural state of one PE: every component of 10_state.md but `LP`, `IDLE`,
`IDLE_SIGNAL` and `INFLIGHT` (10_state.md R27). -/
structure Arch where
  /-- the Event Register (R11) -/
  er       : BitVec 1
  /-- general registers 0 to 30 (R20) -/
  x        : Vector Word 31
  /-- the address of the instruction being executed, or of the suspended one (R21) -/
  pc       : Word
  masks    : Masks
  /-- the current Exception level (R23) -/
  el       : EL
  controls : Controls
  /-- the virtual count, as read through CNTVCT_EL0 (R24) -/
  cntvct   : Word
  /-- the set of pending asynchronous exceptions (R25); only membership matters -/
  pend     : List AsyncExc
  /-- an asynchronous External Debug Request debug event is pending (R25) -/
  edbgrq   : Bool
  /-- a PMU Capture event has occurred and is not yet served (R25, 60_exceptions.md R126) -/
  capture  : Bool
  /-- an asynchronous Profiling exception is pending (R25, 60_exceptions.md R122) -/
  profiling : Bool
  /-- a synchronous PMU Profiling exception is pending (60_exceptions.md R125) -/
  syncProfiling : Bool
deriving DecidableEq, Repr, Inhabited

/-- The inputs of one PE that are defined outside the source (00_scope.md R6). -/
structure Inputs where
  /-- `Mark(p, x)`; an exception that is not listed has the mark OTHER -/
  marks              : List (AsyncExc × Mark)
  allIntMask         : BitVec 1
  haltingAllowed     : Bool
  /-- `Quiet(p)`: earlier operations and their bus activity have completed (60_exceptions.md R129) -/
  quiet              : Bool
  debugInterfaceIdle : Bool
  /-- `ImpDefEvent` pending for p, item I5 of the WFI list (42_wait_for_interrupt.md R103) -/
  impDefEvent        : Bool
deriving DecidableEq, Repr, Inhabited

/-- Why an exception is taken (60_exceptions.md R111, R119, R125). -/
inductive ExcCause
  /-- the trap of an attempt to enter a low-power state -/
  | trap (i : WFx)
  /-- a pending asynchronous exception -/
  | async (x : AsyncExc)
  /-- the pending synchronous PMU Profiling exception -/
  | syncProfiling
deriving DecidableEq, Repr, Inhabited

/-- An exception that has been taken and waits for the exception model, which is supplied from
elsewhere (60_exceptions.md R116): its cause, its target level, and the address a return goes to. -/
structure Handover where
  cause      : ExcCause
  target     : EL
  returnAddr : Word
deriving DecidableEq, Repr, Inhabited

/-- One processing element. -/
structure PE where
  arch       : Arch
  inputs     : Inputs
  /-- `LP[p]` -/
  lp         : LowPower
  /-- `IDLE[p]` (10_state.md R18) -/
  idle       : Bool
  /-- `IDLE_SIGNAL[p]` (10_state.md R18) -/
  idleSignal : Bool
  /-- the abstract outcome `Trap(el, i)` or another exception taken, until the exception model goes on -/
  handover   : Option Handover
deriving DecidableEq, Repr, Inhabited

/-- The values one step may draw (00_scope.md R6, R8). Each is free: no rule limits it but as said. -/
structure Draw where
  /-- `EnterLP(p, i)` -/
  enter          : Bool
  /-- `ER_AFTER_WAKE(p, c)` -/
  erAfterWake    : BitVec 1
  /-- `SEVL_BROADCAST` -/
  sevlBroadcast  : Bool
  /-- which events in flight to a PE its reset keeps, in list order; past the end: kept (10_state.md R28) -/
  keep           : List Bool
  /-- UNKNOWN architectural state (10_state.md R28, 60_exceptions.md R128) -/
  unknown        : Arch
  /-- the next pc where pc + 4 would wrap (10_state.md R21: left unspecified) -/
  wrapPc         : Word
  /-- the level a synchronous PMU Profiling exception is taken to (no source names it) -/
  profilingLevel : EL
deriving DecidableEq, Repr, Inhabited

/-- What an exception return leaves in the PE, supplied by the exception model (60_exceptions.md R117). -/
structure Resume where
  pc    : Word
  el    : EL
  masks : Masks
  x     : Vector Word 31
deriving DecidableEq, Repr, Inhabited

/-- One action of the environment on the acting PE (10_state.md R10(c)). -/
inductive EnvAction
  /-- an asynchronous exception becomes pending -/
  | raise (x : AsyncExc)
  /-- a pending asynchronous exception is withdrawn -/
  | withdraw (x : AsyncExc)
  /-- the External Debug Request is raised or withdrawn -/
  | debugRequest (pending : Bool)
  /-- the counter seen as CNTVCT_EL0 takes a value -/
  | counter (v : Word)
  /-- an event of the timer event stream (41_send_event.md R86) -/
  | streamEvent
  /-- the global monitor for the PE is cleared (41_send_event.md R85) -/
  | monitorCleared
  /-- an event sent by some IMPLEMENTATION DEFINED mechanism (41_send_event.md R86) -/
  | impDefEvent
  /-- the mask bits change by software outside this spec -/
  | setMasks (m : Masks)
  /-- the Exception level changes by software outside this spec (00_scope.md R6: `EL[p]` is an input) -/
  | setLevel (e : EL)
  /-- the control fields change by software or debugger action outside this spec -/
  | setControls (c : Controls)
  /-- the inputs of 00_scope.md R6 change -/
  | setInputs (i : Inputs)
  /-- a PMU Capture event occurs (60_exceptions.md R126) -/
  | captureEvent
  /-- an asynchronous Profiling exception becomes pending or ceases to be -/
  | setProfiling (pending : Bool)
  /-- a synchronous PMU Profiling exception becomes pending or ceases to be -/
  | setSyncProfiling (pending : Bool)
deriving DecidableEq, Repr, Inhabited

/-- One move of one agent at the acting PE `p` (10_state.md R10). -/
inductive Move
  /-- PE `p` executes the instruction at its pc -/
  | execute
  /-- the event fabric delivers `(p, c)` (41_send_event.md R81) -/
  | deliver (c : Cause)
  /-- `WFEWakeStep(p)` or `WFIWakeStep(p)` (40_wait_for_event.md R69, 42_wait_for_interrupt.md R105) -/
  | wake
  /-- `DelayedTrapStep(p)` (60_exceptions.md R114) -/
  | delayedTrap
  /-- `BecomeIdle(p)` (60_exceptions.md R130) -/
  | becomeIdle
  /-- `SignalIdle(p)` (60_exceptions.md R130) -/
  | signalIdle
  /-- the PE serves a PMU Capture event (60_exceptions.md R126) -/
  | serviceCapture
  /-- `PowerDown(p)` (60_exceptions.md R128) -/
  | powerDown
  /-- `Reset(p)` (70_reset_and_hazards.md R137) -/
  | reset
  /-- the environment acts -/
  | env (a : EnvAction)
  /-- a pending exception is taken to level `target` before the next instruction (60_exceptions.md R119) -/
  | takeAsync (x : AsyncExc) (target : EL)
  /-- the exception model starts a handler at `pc` with masks `m` (60_exceptions.md R116, R117) -/
  | enterHandler (pc : Word) (m : Masks)
  /-- an exception return on `p` (41_send_event.md R84) -/
  | exceptionReturn (r : Resume)
deriving DecidableEq, Repr, Inhabited

/-- Which PE acts next, and which move it is. -/
structure Turn where
  pe   : Nat
  move : Move
deriving DecidableEq, Repr, Inhabited

end Sys2Proof.Machine
end

