-- ==== Sys2Proof/Config.lean ====
section
/-! DEFINITION. The constants of an implementation (00_scope.md R6, kind "constant") and the free
values. The constants are plain data that State holds and no step writes, so a statement about every
state is a statement about every implementation. The free values are opaque: nothing is known of them. -/

namespace Sys2Proof

/-- The implementation's constants (00_scope.md R6). `N_PE` is the number of PEs in State. -/
structure Config where
  /-- WFET and WFIT are implemented -/
  featWFxT       : Bool
  /-- a delay before a WFE or WFET trap can be configured -/
  featTWED       : Bool
  /-- synchronous PMU Profiling exceptions exist -/
  featSEBEP      : Bool
  haveEL2        : Bool
  haveEL3        : Bool
  /-- the system is configured such that WFI and WFIT can be completed -/
  wfiCanComplete : Bool
  /-- a WFI powerdown mechanism is implemented -/
  wfiPowerdown   : Bool
  /-- `RESET_PC` -/
  resetPc        : Word
deriving DecidableEq, Repr, Inhabited

/-- DESIGN CHOICE, safe, log entry 5: which agent moves after step number `n`. Free: no source fixes an order
(10_state.md R10). -/
opaque Config.freeTurn : Nat → Machine.Turn

/-- DESIGN CHOICE, safe, log entry 6: the values drawn for the step after step number `n`. Free
(00_scope.md R8: "the model must admit every choice"). -/
opaque Config.freeDraw : Nat → Machine.Draw

end Sys2Proof
end

