-- ==== Sys2Proof/Syntax.lean ====
section
/-! DEFINITION. The six instructions of the spec, one constructor for each row of
spec/opcode_table.json (30_encoding.md R42). -/

namespace Sys2Proof

/-- An instruction term. The trusted level of the spec is the term (92_eei_decisions.md D1). -/
inductive Instr
  /-- `WFE`: Wait for Event (40_wait_for_event.md R55). -/
  | wfe
  /-- `WFI`: Wait for Interrupt (42_wait_for_interrupt.md R90). -/
  | wfi
  /-- `SEV`: Send Event (41_send_event.md R77). -/
  | sev
  /-- `SEVL`: Send Event Local (41_send_event.md R78). -/
  | sevl
  /-- `WFET Xt`: Wait for Event with Timeout (40_wait_for_event.md R56). -/
  | wfet (t : RegNum)
  /-- `WFIT Xt`: Wait for Interrupt with Timeout (42_wait_for_interrupt.md R91). -/
  | wfit (t : RegNum)
deriving DecidableEq, Repr

end Sys2Proof
end

