-- ==== Sys2Proof/WellFormed.lean ====
section
/-! DEFINITION. Which instruction terms exist on an implementation. -/

namespace Sys2Proof

/-- WFET and WFIT exist exactly where FEAT_WFxT is implemented; the other four always exist
(30_encoding.md R42, R48). A register number is in range by its type. -/
def Instr.wellFormed (c : Config) : Instr → Bool
  | .wfe | .wfi | .sev | .sevl => true
  | .wfet _ | .wfit _ => c.featWFxT

end Sys2Proof
end

