-- ==== Sys2Proof/Decode.lean ====
section
/-! DEFINITION. The decoder (30_encoding.md R43 to R50), total on any bytes, and the encoder. -/

namespace Sys2Proof

/-- Why a word or a byte list is not an instruction. -/
inductive DecodeRefusal
  /-- fewer than the 4 bytes every instruction has (R43) -/
  | truncated
  /-- a word that matches none of the six rows (R50) -/
  | notOfThisSpec (w : InsnWord)
  /-- a format T word where FEAT_WFxT is not implemented (R48) -/
  | featWFxTAbsent (w : InsnWord)
deriving DecidableEq, Repr

/-- Bits 31:12, which tell the formats apart (R44, R45). -/
def fieldFixed (w : InsnWord) : BitVec 20 := w.extractLsb' 12 20

/-- Bits 11:8. -/
def fieldCRm (w : InsnWord) : BitVec 4 := w.extractLsb' 8 4

/-- Bits 7:5. -/
def fieldOp2 (w : InsnWord) : BitVec 3 := w.extractLsb' 5 3

/-- Bits 4:0: `11111` in format H, `Rt` in format T. -/
def fieldRt (w : InsnWord) : BitVec 5 := w.extractLsb' 0 5

/-- Format H, hint number `CRm:op2` with `CRm` zero (R44, R47). -/
def decodeHint (op2 : BitVec 3) : Option Instr :=
  if op2 = 0b010#3 then some .wfe
  else if op2 = 0b011#3 then some .wfi
  else if op2 = 0b100#3 then some .sev
  else if op2 = 0b101#3 then some .sevl
  else none

/-- Format T (R45, R47). -/
def decodeTimed (op2 : BitVec 3) (rt : BitVec 5) : Option Instr :=
  if op2 = 0b000#3 then some (.wfet rt.toFin)
  else if op2 = 0b001#3 then some (.wfit rt.toFin)
  else none

/-- The instruction a word stands for, whatever the optional features (R47). -/
def decodeRow (w : InsnWord) : Option Instr :=
  if fieldCRm w ≠ 0#4 then none
  else if fieldFixed w = 0xD5032#20 then
    if fieldRt w = 0b11111#5 then decodeHint (fieldOp2 w) else none
  else if fieldFixed w = 0xD5031#20 then decodeTimed (fieldOp2 w) (fieldRt w)
  else none

/-- The instruction a word stands for on the implementation `c`; a refusal by name otherwise
(R47, R48, R50). -/
def decode (c : Config) (w : InsnWord) : Except DecodeRefusal Instr :=
  match decodeRow w with
  | none => .error (.notOfThisSpec w)
  | some i => if i.wellFormed c then .ok i else .error (.featWFxTAbsent w)

/-- An instruction word from its bytes at ascending addresses, little-endian (20_memory.md R37). -/
def wordOfBytes (b0 b1 b2 b3 : Byte) : InsnWord := b3 ++ b2 ++ b1 ++ b0

/-- Decode the instruction at the head of a byte list; answer it and the bytes after it. -/
def decodeBytes (c : Config) : List Byte → Except DecodeRefusal (Instr × List Byte)
  | b0 :: b1 :: b2 :: b3 :: rest =>
    match decode c (wordOfBytes b0 b1 b2 b3) with
    | .ok i => .ok (i, rest)
    | .error e => .error e
  | _ => .error .truncated

/-- The word of an instruction, from the pattern columns of the table of R47. -/
def encode : Instr → InsnWord
  | .wfe    => 0xD503205F#32
  | .wfi    => 0xD503207F#32
  | .sev    => 0xD503209F#32
  | .sevl   => 0xD50320BF#32
  | .wfet t => 0xD5031000#32 ||| BitVec.ofNat 32 t.val
  | .wfit t => 0xD5031020#32 ||| BitVec.ofNat 32 t.val

/-- The bytes of a word at ascending addresses (20_memory.md R37). -/
def bytesOfWord (w : InsnWord) : List Byte :=
  [w.extractLsb' 0 8, w.extractLsb' 8 8, w.extractLsb' 16 8, w.extractLsb' 24 8]

/-- The bytes of an instruction. -/
def encodeBytes (i : Instr) : List Byte := bytesOfWord (encode i)

/-- The name of a 64-bit general register in assembly; number 31 is `XZR` (R51). -/
def registerName (t : RegNum) : String := if t.val = 31 then "XZR" else "X" ++ toString t.val

/-- The assembly of an instruction (R51): the trusted level of the spec is this term, not the word. -/
def assembly : Instr → String
  | .wfe    => "WFE"
  | .wfi    => "WFI"
  | .sev    => "SEV"
  | .sevl   => "SEVL"
  | .wfet t => "WFET " ++ registerName t
  | .wfit t => "WFIT " ++ registerName t

/-- The implementation the opcode table describes: every optional row present. -/
def tableConfig : Config :=
  { featWFxT := true, featTWED := true, featSEBEP := true, haveEL2 := true, haveEL3 := true,
    wfiCanComplete := true, wfiPowerdown := true, resetPc := 0#64 }

/-- The word an instruction of `nbits` table bits `w` has in memory: the bits above `nbits` are 0. -/
def tableWord (nbits w : Nat) : InsnWord := BitVec.ofNat 32 (w % 2 ^ nbits)

/-- What the decoder reads from an instruction whose bits are `w`, laid out as the hardware stores it. -/
def decodeTableWord (nbits w : Nat) : Option Instr :=
  match decodeBytes tableConfig (bytesOfWord (tableWord nbits w)) with
  | .ok (i, _) => some i
  | .error _ => none

end Sys2Proof
end

