-- ==== Sys2Proof/Machine/State.lean ====
section
/-! DEFINITION. The state of the whole machine, its reset value, and the reasons a step can stop. -/

namespace Sys2Proof.Machine

/-- Memory: the bytes that hold a value, addresses strictly rising. An address that is not listed has
NO value, and a fetch from it faults (log entry 8, safe). -/
abbrev Memory := List Host.Cell

/-- The machine. `pes` is the list of PEs, so `N_PE` is its length. `turn`, `draw` and `tick` are the
model's own: who moves next, the values that move may draw, and the counter both are refilled from. -/
structure State where
  /-- the implementation's constants (00_scope.md R6) -/
  config   : Config
  /-- PE `p` is the entry at index `p` (10_state.md R10) -/
  pes      : List PE
  /-- `INFLIGHT`, a multiset of pairs (10_state.md R19) -/
  inflight : List (Nat × Cause)
  mem      : Memory
  turn     : Turn
  draw     : Draw
  tick     : Nat
deriving DecidableEq, Repr, Inhabited

/-- Why a step stops with a fault. -/
inductive Fault
  /-- Raised by the fetch: the byte at `addr` has no value, because nothing has placed one there.
  Safe: the model stops where hardware would read something. -/
  | fetchUnwritten (addr : Nat)
deriving DecidableEq, Repr

/-- Why a step is refused. -/
inductive Refusal
  /-- Raised by `exec` for an instruction without a meaning. No arm raises it. Safe. -/
  | notModelled (mnemonic : String)
  /-- Raised by `exec` when the acting PE is none of `0 .. N_PE-1`. `step` never asks that. Safe. -/
  | noSuchPE
  /-- Raised by `exec` when the acting PE has no instruction step: it is suspended, powered down, or
  waits for the exception model (10_state.md R16, 60_exceptions.md R116). `step` never asks that. Safe. -/
  | notExecuting
  /-- Raised by the decoder and by WFET and WFIT where FEAT_WFxT is not implemented (30_encoding.md R48). Safe. -/
  | featWFxTAbsent
  /-- Raised by the fetch: `pc` is not a multiple of 4 (20_memory.md R38). Safe. -/
  | misalignedPc (pc : Word)
  /-- Raised by the decoder: the word is not an instruction of this spec (30_encoding.md R50). Safe. -/
  | notOfThisSpec (w : InsnWord)
deriving DecidableEq, Repr

/-- Executing instructions, nothing suspended (10_state.md R16, R28). -/
def LowPower.running : LowPower := { kind := .run, timeout := none, trap := none }

/-- DESIGN CHOICE, unsafe, log entries 1 and 2: architectural state with every field 0, false or EL0. -/
def Arch.zero : Arch :=
  { er := 0#1, x := Vector.replicate 31 0#64, pc := 0#64,
    masks := { a := 0#1, i := 0#1, f := 0#1 }, el := .el0,
    controls :=
      { nTWE := 0#1, nTWI := 0#1, hcrTWE := 0#1, hcrTWI := 0#1, scrTWE := 0#1, scrTWI := 0#1,
        delayEL1 := false, delayEL2 := false, delayEL3 := false, intDis := [], dlk := 0#1 },
    cntvct := 0#64, pend := [], edbgrq := false, capture := false, profiling := false,
    syncProfiling := false }

/-- DESIGN CHOICE, unsafe, log entry 2: inputs with every field 0, false or empty. -/
def Inputs.zero : Inputs :=
  { marks := [], allIntMask := 0#1, haltingAllowed := false, quiet := false,
    debugInterfaceIdle := false, impDefEvent := false }

/-- DESIGN CHOICE, unsafe, log entry 4: an implementation with every optional feature, on which WFI
can be completed, and whose `RESET_PC` is 0 (log entry 3). -/
def resetConfig : Config :=
  { featWFxT := true, featTWED := true, featSEBEP := true, haveEL2 := true, haveEL3 := true,
    wfiCanComplete := true, wfiPowerdown := true, resetPc := 0#64 }

/-- One PE after reset: `LP`, `IDLE`, `IDLE_SIGNAL` as 10_state.md R28 says, `pc` at `RESET_PC`,
the rest as log entries 1 and 2 say. -/
def PE.atReset : PE :=
  { arch := { Arch.zero with pc := resetConfig.resetPc }, inputs := Inputs.zero,
    lp := LowPower.running, idle := false, idleSignal := false, handover := none }

/-- DESIGN CHOICE, unsafe, log entry 6: the drawn values the first step meets. -/
def Draw.zero : Draw :=
  { enter := false, erAfterWake := 0#1, sevlBroadcast := false, keep := [], unknown := Arch.zero,
    wrapPc := 0#64, profilingLevel := .el0 }

/-- The machine right after reset: two PEs (log entry 4), nothing in flight (log entry 26), no byte
of memory with a value (log entry 8), PE 0 about to execute (log entry 5). -/
def State.reset : State :=
  { config := resetConfig, pes := [PE.atReset, PE.atReset], inflight := [], mem := [],
    turn := { pe := 0, move := .execute }, draw := Draw.zero, tick := 0 }

end Sys2Proof.Machine
end

