-- ==== Sys2Proof/Machine/Ops.lean ====
section
/-! DEFINITION. The named operations over memory, PEs and the machine: completing an instruction,
suspending, taking an exception and what the exception model does after it. -/

namespace Sys2Proof.Machine

/-- The three outcomes of an instruction or a step. -/
abbrev Result := Host.Outcome State Fault Refusal

/-! ### Memory -/

/-- The byte at address `a`, or none where no byte has a value (log entry 8). -/
def Memory.read : Memory → Nat → Option Byte
  | [], _ => none
  | (k, b) :: m, a => if k = a then some b else Memory.read m a

/-- Store one byte, keeping the addresses strictly rising. -/
def Memory.write : Memory → Nat → Byte → Memory
  | [], a, b => [(a, b)]
  | (k, v) :: m, a, b =>
    if a < k then (a, b) :: (k, v) :: m
    else if a = k then (a, b) :: m
    else (k, v) :: Memory.write m a b

/-- Store bytes at ascending addresses. -/
def Memory.writeBytes : Memory → Nat → List Byte → Memory
  | m, _, [] => m
  | m, a, b :: bs => Memory.writeBytes (Memory.write m a b) (a + 1) bs

/-- Every address of `m` is above `a`. -/
def Memory.above (a : Nat) (m : Memory) : Bool := m.all fun c => a < c.1

/-- The canonical form: addresses strictly rising. -/
def Memory.wf : Memory → Bool
  | [] => true
  | (k, _) :: m => Memory.above k m && Memory.wf m

/-- The instruction word at address `a`, little-endian (20_memory.md R37); the first address with no
value otherwise. -/
def Memory.fetchWord (m : Memory) (a : Nat) : Except Nat InsnWord :=
  match m.read a, m.read (a + 1), m.read (a + 2), m.read (a + 3) with
  | some b0, some b1, some b2, some b3 => .ok (wordOfBytes b0 b1 b2 b3)
  | none, _, _, _ => .error a
  | some _, none, _, _ => .error (a + 1)
  | some _, some _, none, _ => .error (a + 2)
  | some _, some _, some _, none => .error (a + 3)

/-! ### Exception levels (10_state.md R23, 60_exceptions.md R108) -/

/-- EL0 < EL1 < EL2 < EL3. -/
def EL.rank : EL → Nat
  | .el0 => 0 | .el1 => 1 | .el2 => 2 | .el3 => 3

/-- EL2 exists where `HAVE_EL2`, EL3 where `HAVE_EL3`; EL0 and EL1 always. -/
def EL.implemented (c : Config) : EL → Bool
  | .el0 | .el1 => true
  | .el2 => c.haveEL2
  | .el3 => c.haveEL3

/-- A free level, kept to the levels that exist (log entry 30). -/
def EL.legal (c : Config) (e : EL) : EL := if e.implemented c then e else .el1

/-! ### The program counter (10_state.md R17, R21) -/

/-- Instructions are 4-byte aligned (20_memory.md R38). -/
def pcAligned (pc : Word) : Bool := pc.toNat % 4 == 0

/-- The aligned address at or below `a`. -/
def alignDown (a : Word) : Word := BitVec.ofNat 64 (a.toNat / 4 * 4)

/-- The address 4 bytes on. Where pc + 4 would leave the address space the spec states no value
(10_state.md R21): a free aligned value (log entry 12, safe). -/
def nextPc (d : Draw) (pc : Word) : Word :=
  if pc.toNat + 4 < 2 ^ 64 then pc + 4#64 else alignDown d.wrapPc

/-! ### One PE -/

/-- The PE has an instruction step: it runs (10_state.md R16), and no exception it took waits for
the exception model (60_exceptions.md R116). -/
def PE.executing (pe : PE) : Bool := decide (pe.lp.kind = .run) && pe.handover.isNone

/-- Set the Event Register. -/
def PE.setER (v : BitVec 1) (pe : PE) : PE := { pe with arch := { pe.arch with er := v } }

/-- Move on to the next instruction. -/
def PE.advance (d : Draw) (pe : PE) : PE :=
  { pe with arch := { pe.arch with pc := nextPc d pe.arch.pc } }

/-- `Complete(p)` (10_state.md R17). -/
def PE.complete (d : Draw) (pe : PE) : PE :=
  { pe with
    arch := { pe.arch with pc := nextPc d pe.arch.pc }
    lp := LowPower.running
    idle := false
    idleSignal := false }

/-- Suspend: the PE enters the low-power state, `pc` still at the instruction (10_state.md R16). -/
def PE.suspend (k : LpKind) (timeout : Option Word) (trap : Option EL) (pe : PE) : PE :=
  { pe with lp := { kind := k, timeout := timeout, trap := trap } }

/-- Taking an exception, as far as the spec describes it (60_exceptions.md R116): the PE runs, the
Event Register and `pc` stay, `EL` becomes the target, and the return address handed to the exception
model is `pc`. Where execution goes on, which masks are set and the syndrome are in no source: the PE
has no instruction step until the exception model moves (log entry 13). -/
def PE.takeException (cause : ExcCause) (target : EL) (pe : PE) : PE :=
  { pe with
    arch := { pe.arch with el := target }
    lp := LowPower.running
    idle := false
    idleSignal := false
    handover := some { cause := cause, target := target, returnAddr := pe.arch.pc } }

/-- An exception return on the PE sets its Event Register within the same step (41_send_event.md R84).
What it restores is in no source and comes from the exception model (log entry 20). -/
def PE.exceptionReturn (r : Resume) (pe : PE) : PE :=
  { pe with
    arch := { pe.arch with er := 1#1, pc := r.pc, el := r.el, masks := r.masks, x := r.x }
    handover := none }

/-- The exception model goes on after an exception was taken: a handler starts at `pc` with masks `m`
(60_exceptions.md R116, R117; log entry 20). -/
def PE.enterHandler (pc : Word) (m : Masks) (pe : PE) : PE :=
  { pe with arch := { pe.arch with pc := pc, masks := m }, handover := none }

/-- Take the pending synchronous PMU Profiling exception (60_exceptions.md R125). The source names no
target level: a free implemented level (log entry 17). -/
def PE.takeSyncProfiling (c : Config) (d : Draw) (pe : PE) : PE :=
  PE.takeException .syncProfiling (d.profilingLevel.legal c)
    { pe with arch := { pe.arch with syncProfiling := false } }

/-- Where FEAT_SEBEP, a pending synchronous PMU Profiling exception is taken before the waiting
instruction does anything; else the instruction does `body` (60_exceptions.md R125). -/
def PE.profilingFirst (c : Config) (d : Draw) (body : PE → PE) (pe : PE) : PE :=
  if c.featSEBEP && pe.arch.syncProfiling then pe.takeSyncProfiling c d else body pe

/-! ### The machine -/

/-- The PE whose move it is. -/
def State.acting? (s : State) : Option PE := s.pes[s.turn.pe]?

/-- Replace the acting PE. -/
def State.setActing (s : State) (pe : PE) : State := { s with pes := s.pes.set s.turn.pe pe }

/-- Change the acting PE, if there is one. -/
def State.mapActing (s : State) (f : PE → PE) : State :=
  match s.acting? with
  | some pe => s.setActing (f pe)
  | none => s

/-- Put events in flight (10_state.md R19). -/
def State.signal (s : State) (l : List (Nat × Cause)) : State := { s with inflight := s.inflight ++ l }

/-- An instruction's result where its rules' condition "the executing PE p, with LP[p].kind == RUN"
holds; a refusal outside it. -/
def State.whenExecuting (s t : State) : Result :=
  match s.acting? with
  | none => .refused .noSuchPE
  | some pe => if pe.executing then .next t else .refused .notExecuting

/-- After a step the next turn and the next draws are free (log entries 5 and 6). -/
def State.rollOver (s : State) : State :=
  { s with turn := Config.freeTurn s.tick, draw := Config.freeDraw s.tick, tick := s.tick + 1 }

/-- Roll over after an instruction that gave a next state. -/
def rollOverResult : Result → Result
  | .next s => .next s.rollOver
  | .fault f => .fault f
  | .refused r => .refused r

end Sys2Proof.Machine
end

