-- ==== Sys2Proof/Machine/Trap.lean ====
section
/-! DEFINITION. The attempt to enter a low-power state and its configurable trap
(60_exceptions.md R110 to R116). -/

namespace Sys2Proof.Machine

/-- WFE and WFET share their traps and their FEAT_TWED delay (R112, R114). -/
def WFx.isEvent : WFx → Bool
  | .wfe | .wfet => true
  | .wfi | .wfit => false

/-- The low-power state an instruction enters (10_state.md R16). -/
def WFx.kind (w : WFx) : LpKind := if w.isEvent then .wfe else .wfi

/-- The control field that makes `w` subject to a trap at `target` has the value that traps. The rows
for SCTLR_EL1.nTWE and HCR_EL2.TWE with WFE are the source's; the others are the usual table of R112
(PRESUMED, unsafe, log entry 14). -/
def Controls.traps (k : Controls) (w : WFx) : EL → Bool
  | .el0 => false
  | .el1 => if w.isEvent then decide (k.nTWE = 0#1) else decide (k.nTWI = 0#1)
  | .el2 => if w.isEvent then decide (k.hcrTWE = 1#1) else decide (k.hcrTWI = 1#1)
  | .el3 => if w.isEvent then decide (k.scrTWE = 1#1) else decide (k.scrTWI = 1#1)

/-- An attempt by `w` is subject to a trap at `target`: the level exists, it is higher than the one
executing (R112(d)), and its control traps `w`. -/
def PE.subjectTo (c : Config) (pe : PE) (w : WFx) (target : EL) : Bool :=
  target.implemented c && decide (pe.arch.el.rank < target.rank) && pe.arch.controls.traps w target

/-- `TrapTarget(p, i)`: the lowest level the attempt is subject to a trap at (R112, R113). -/
def PE.trapTarget (c : Config) (pe : PE) (w : WFx) : Option EL :=
  if pe.subjectTo c w .el1 then some .el1
  else if pe.subjectTo c w .el2 then some .el2
  else if pe.subjectTo c w .el3 then some .el3
  else none

/-- A delay is configured for traps to `target` (R114, R115; log entry 15). -/
def Controls.delayAt (k : Controls) : EL → Bool
  | .el0 => false
  | .el1 => k.delayEL1
  | .el2 => k.delayEL2
  | .el3 => k.delayEL3

/-- `TrapDelayConfigured(p, i)` for the trap to `target`: only under FEAT_TWED, only for WFE and WFET
(R114). -/
def PE.trapDelayed (c : Config) (pe : PE) (w : WFx) (target : EL) : Bool :=
  c.featTWED && w.isEvent && pe.arch.controls.delayAt target

/-- The part WFE, WFET, WFI and WFIT share: the PE enters the low-power state, or traps, or does
neither (40_wait_for_event.md R55, R56; 42_wait_for_interrupt.md R90, R91). `EnterLP` is drawn before
the trap is considered (R110(b)). -/
def PE.attempt (c : Config) (d : Draw) (w : WFx) (timeout : Option Word) (pe : PE) : PE :=
  if d.enter then
    match pe.trapTarget c w with
    | some el =>
      if pe.trapDelayed c w el then pe.suspend w.kind timeout (some el)
      else pe.takeException (.trap w) el
    | none => pe.suspend w.kind timeout none
  else pe.complete d

end Sys2Proof.Machine
end

