-- ==== Sys2Proof/Machine/Flags.lean ====
section
/-! DEFINITION. The PSTATE mask bits and how they, AllIntMask, the markings and EDSCR.INTdis bear on a
pending exception. The spec has no condition flags: "No condition flags (N, Z, C, V) are read or
written by any instruction in scope" (10_state.md R22). -/

namespace Sys2Proof.Machine

/-- The mask bit of a type: A with SError, I with IRQ, F with FIQ (10_state.md R22). -/
def Masks.bitOf (m : Masks) : ExcType → BitVec 1
  | .serror => m.a
  | .irq => m.i
  | .fiq => m.f

/-- The type of a pending exception. -/
def AsyncExc.type : AsyncExc → ExcType
  | .physical t _ => t
  | .virtual t _ => t
  | .delegated => .serror

/-- `MaskBit(p, x)` (10_state.md R22). -/
def PE.maskBit (pe : PE) (x : AsyncExc) : BitVec 1 := pe.arch.masks.bitOf x.type

/-- The first entry for `x` in a table of markings; OTHER where there is none. -/
def lookupMark : List (AsyncExc × Mark) → AsyncExc → Mark
  | [], _ => .other
  | (y, m) :: l, x => if y = x then m else lookupMark l x

/-- `Mark(p, x)` (00_scope.md R6; log entry 16). -/
def PE.markOf (pe : PE) (x : AsyncExc) : Mark := lookupMark pe.inputs.marks x

/-- `IntDis(p, x)`: disabled by EDSCR.INTdis (00_scope.md R6; log entry 16). -/
def PE.intDisabled (pe : PE) (x : AsyncExc) : Bool := decide (x ∈ pe.arch.controls.intDis)

/-- "AllIntMask is 0 and the IRQ or FIQ interrupt has Superpriority" (40_wait_for_event.md R63, R64):
never for an SError, never for a delegated exception. -/
def PE.superpriorityApplies (pe : PE) : AsyncExc → Bool
  | .physical t sp | .virtual t sp =>
    decide (pe.inputs.allIntMask = 0#1) && decide (t ≠ .serror) && sp
  | .delegated => false

/-- A B-marked exception that its mask bit does not hold back: the bit is 0, or effective
Superpriority (40_wait_for_event.md R63 to R65). -/
def PE.unmasked (pe : PE) (x : AsyncExc) : Bool :=
  decide (pe.maskBit x = 0#1) || pe.superpriorityApplies x

end Sys2Proof.Machine
end

