-- ==== Sys2Proof/Machine/Wake.lean ====
section
/-! DEFINITION. The WFE wakeup events (40_wait_for_event.md R62 to R69) and the WFI wakeup events
(42_wait_for_interrupt.md R98 to R105), as predicates on one PE. The wake step does not read them:
it is always enabled. They say when a wakeup event is pending. -/

namespace Sys2Proof.Machine

/-- Virtual exceptions count at EL1 or EL0 only (R64, R100). -/
def EL.seesVirtual : EL → Bool
  | .el0 | .el1 => true
  | .el2 | .el3 => false

/-- Delegated SErrors count at EL2, EL1 or EL0 only (R65, R101). -/
def EL.seesDelegated : EL → Bool
  | .el0 | .el1 | .el2 => true
  | .el3 => false

/-- `PhysWakesWFE(p, x)` (R63). -/
def PE.physWakesWFE (pe : PE) (x : AsyncExc) : Bool :=
  match x with
  | .physical _ _ =>
    !pe.intDisabled x &&
      (decide (pe.markOf x = .a) || (decide (pe.markOf x = .b) && pe.unmasked x))
  | .virtual _ _ | .delegated => false

/-- `VirtWakesWFE(p, x)` (R64): there is no "marked as A" alternative. -/
def PE.virtWakesWFE (pe : PE) (x : AsyncExc) : Bool :=
  match x with
  | .virtual _ _ =>
    pe.arch.el.seesVirtual && !pe.intDisabled x && decide (pe.markOf x = .b) && pe.unmasked x
  | .physical _ _ | .delegated => false

/-- `DelegWakesWFE(p, x)` (R65): no Superpriority clause. -/
def PE.delegWakesWFE (pe : PE) (x : AsyncExc) : Bool :=
  match x with
  | .delegated =>
    pe.arch.el.seesDelegated && !pe.intDisabled x &&
      (decide (pe.markOf x = .a) || (decide (pe.markOf x = .b) && decide (pe.arch.masks.a = 0#1)))
  | .physical _ _ | .virtual _ _ => false

/-- `x` is a WFE wakeup event (R62, W2 to W4). -/
def PE.excWakesWFE (pe : PE) (x : AsyncExc) : Bool :=
  pe.physWakesWFE x || pe.virtWakesWFE x || pe.delegWakesWFE x

/-- `PhysWakesWFI(p, x)` (R99). -/
def PE.physWakesWFI (pe : PE) (x : AsyncExc) : Bool :=
  match x with
  | .physical _ _ => decide (pe.markOf x = .a) || decide (pe.markOf x = .b)
  | .virtual _ _ | .delegated => false

/-- `VirtWakesWFI(p, x)` (R100). -/
def PE.virtWakesWFI (pe : PE) (x : AsyncExc) : Bool :=
  match x with
  | .virtual _ _ => pe.arch.el.seesVirtual && decide (pe.markOf x = .b)
  | .physical _ _ | .delegated => false

/-- `DelegWakesWFI(p, x)` (R101). -/
def PE.delegWakesWFI (pe : PE) (x : AsyncExc) : Bool :=
  match x with
  | .delegated =>
    pe.arch.el.seesDelegated && (decide (pe.markOf x = .a) || decide (pe.markOf x = .b))
  | .physical _ _ | .virtual _ _ => false

/-- `x` is a WFI wakeup event (R98, I1 to I3). -/
def PE.excWakesWFI (pe : PE) (x : AsyncExc) : Bool :=
  pe.physWakesWFI x || pe.virtWakesWFI x || pe.delegWakesWFI x

/-- `DebugWakes(p)` (R66, R102). -/
def PE.debugWakes (pe : PE) : Bool := pe.inputs.haltingAllowed && pe.arch.edbgrq

/-- `TimeoutWakes(p)` (R68, R103): the virtual count equals or exceeds the threshold, unsigned. -/
def PE.timeoutWakes (c : Config) (pe : PE) : Bool :=
  match pe.lp.timeout with
  | some t => c.featWFxT && decide (t.toNat ≤ pe.arch.cntvct.toNat)
  | none => false

/-- `WFEWakePending(p)` (R69). -/
def PE.wfeWakePending (c : Config) (pe : PE) : Bool :=
  pe.arch.pend.any pe.excWakesWFE || pe.debugWakes || pe.timeoutWakes c

/-- `WFIWakePending(p)` (R105). -/
def PE.wfiWakePending (c : Config) (pe : PE) : Bool :=
  pe.arch.pend.any pe.excWakesWFI || pe.debugWakes || pe.inputs.impDefEvent || pe.timeoutWakes c

end Sys2Proof.Machine
end

