-- ==== Sys2Proof/Machine/Agents.lean ====
section
/-! DEFINITION. The moves of the agents other than an instruction step: the event fabric, the waking
and idling PE, the power controller, reset, the environment, the exception model (10_state.md R10).
Each acts on the PE whose turn it is. A move that is not enabled changes nothing (log entry 7). -/

namespace Sys2Proof.Machine

/-! ### Delivery of events (41_send_event.md R81) -/

/-- What a delivered event does to its target: it wakes a WFE, sets the Event Register of a running PE
or of one in WFI, and is lost on one that is powered down. -/
def PE.receive (d : Draw) (pe : PE) : PE :=
  match pe.lp.kind with
  | .wfe => (pe.complete d).setER d.erAfterWake
  | .run | .wfi => pe.setER 1#1
  | .off => pe

/-! ### Waking and the delayed trap -/

/-- `WFEWakeStep(p)` and `WFIWakeStep(p)`: enabled whenever the PE is suspended
(40_wait_for_event.md R69, 42_wait_for_interrupt.md R105). -/
def PE.wakeStep (d : Draw) (pe : PE) : PE :=
  match pe.lp.kind with
  | .wfe | .wfi => pe.complete d
  | .run | .off => pe

/-- Which instruction a suspended PE waits in: `some T` exactly for the timed one (10_state.md R16). -/
def LowPower.suspendedEvent (l : LowPower) : WFx := if l.timeout.isSome then .wfet else .wfe

/-- `DelayedTrapStep(p)` (60_exceptions.md R114). -/
def PE.delayedTrapStep (pe : PE) : PE :=
  match pe.lp.kind, pe.lp.trap with
  | .wfe, some el => pe.takeException (.trap pe.lp.suspendedEvent) el
  | _, _ => pe

/-! ### Idle state and powerdown (60_exceptions.md R126 to R132) -/

/-- `BecomeIdle(p)` (R130). -/
def PE.becomeIdle (pe : PE) : PE :=
  if pe.lp.kind = .wfi ∧ pe.inputs.quiet = true ∧ pe.idle = false then { pe with idle := true } else pe

/-- `SignalIdle(p)` (R130), guarded by the OS Double Lock (R132). -/
def PE.signalIdle (c : Config) (pe : PE) : PE :=
  if c.wfiPowerdown = true ∧ pe.idle = true ∧ pe.idleSignal = false ∧
      (pe.arch.controls.dlk = 0#1 ∨ pe.inputs.debugInterfaceIdle = true)
  then { pe with idleSignal := true } else pe

/-- The PE serves a PMU Capture event and goes on as it was (R126). -/
def PE.serviceCapture (pe : PE) : PE := { pe with arch := { pe.arch with capture := false } }

/-- `PowerDown(p)` (R128): only from a suspended WFI, only where WFI cannot be completed. The UNKNOWN
level is one that exists: DEDUCED from 10_state.md R23, which says what `EL[p]` ranges over (log entry 30). -/
def PE.powerDown (c : Config) (d : Draw) (pe : PE) : PE :=
  if pe.lp.kind = .wfi ∧ c.wfiCanComplete = false then
    { pe with
      arch := { d.unknown with el := d.unknown.el.legal c }
      lp := { kind := .off, timeout := none, trap := none }
      idle := false
      idleSignal := false
      handover := none }
  else pe

/-! ### Reset (70_reset_and_hazards.md R137, 10_state.md R28) -/

/-- The PE after `Reset(p)`: what R28 leaves unspecified is drawn, the level among those that exist (log
entries 26 and 30). The inputs of 00_scope.md R6 stay: they are the environment's (log entry 16). -/
def PE.resetStep (c : Config) (d : Draw) (pe : PE) : PE :=
  { arch := { d.unknown with pc := c.resetPc, el := d.unknown.el.legal c }
    inputs := pe.inputs
    lp := LowPower.running
    idle := false
    idleSignal := false
    handover := none }

/-- INFLIGHT after `Reset(p)`: each event for `p` is kept or dropped as the list of draws says, the
others stay. -/
def keepInflight (p : Nat) : List Bool → List (Nat × Cause) → List (Nat × Cause)
  | _, [] => []
  | ks, (q, c) :: l =>
    if q = p then
      match ks with
      | [] => (q, c) :: keepInflight p [] l
      | true :: ks => (q, c) :: keepInflight p ks l
      | false :: ks => keepInflight p ks l
    else (q, c) :: keepInflight p ks l

/-! ### The environment (10_state.md R10(c)) -/

/-- Change the architectural state of a PE. -/
def PE.mapArch (f : Arch → Arch) (pe : PE) : PE := { pe with arch := f pe.arch }

/-- An exception becomes pending; PEND is a set (10_state.md R25). -/
def Arch.raise (x : AsyncExc) (a : Arch) : Arch :=
  { a with pend := if x ∈ a.pend then a.pend else x :: a.pend }

/-- An exception is no longer pending. -/
def Arch.withdraw (x : AsyncExc) (a : Arch) : Arch :=
  { a with pend := a.pend.filter fun y => decide (y ≠ x) }

/-- The level is an input of 00_scope.md R6: the environment may set it to any level that exists
(10_state.md R23; log entry 31). -/
def PE.setLevel (c : Config) (e : EL) (pe : PE) : PE :=
  if e.implemented c then pe.mapArch fun a => { a with el := e } else pe

/-- What an action of the environment changes in the PE. -/
def PE.environment (c : Config) (a : EnvAction) (pe : PE) : PE :=
  match a with
  | .raise x => pe.mapArch (Arch.raise x)
  | .withdraw x => pe.mapArch (Arch.withdraw x)
  | .debugRequest b => pe.mapArch fun a => { a with edbgrq := b }
  | .counter v => pe.mapArch fun a => { a with cntvct := v }
  | .streamEvent | .monitorCleared | .impDefEvent => pe
  | .setMasks m => pe.mapArch fun a => { a with masks := m }
  | .setLevel e => pe.setLevel c e
  | .setControls k => pe.mapArch fun a => { a with controls := k }
  | .setInputs i => { pe with inputs := i }
  | .captureEvent => pe.mapArch fun a => { a with capture := true }
  | .setProfiling b => pe.mapArch fun a => { a with profiling := b }
  | .setSyncProfiling b => pe.mapArch fun a => { a with syncProfiling := b }

/-- The event an action of the environment puts in flight (41_send_event.md R85, R86). -/
def EnvAction.event : EnvAction → Option Cause
  | .streamEvent => some .stream
  | .monitorCleared => some .monitor
  | .impDefEvent => some .impdef
  | .raise _ | .withdraw _ | .debugRequest _ | .counter _ | .setMasks _ | .setLevel _
  | .setControls _ | .setInputs _ | .captureEvent | .setProfiling _ | .setSyncProfiling _ => none

/-! ### The exception model (60_exceptions.md R116 to R119) -/

/-- Held back by its mask bit: marked B and not unmasked. -/
def PE.heldByMask (pe : PE) (x : AsyncExc) : Bool := decide (pe.markOf x = .b) && !pe.unmasked x

/-- A pending exception may be taken before the next instruction of an executing PE, to a level that
exists, unless it is disabled or masked: "the interrupt is not taken" (R119; log entry 19). -/
def PE.mayTake (c : Config) (pe : PE) (x : AsyncExc) (target : EL) : Bool :=
  pe.executing && decide (x ∈ pe.arch.pend) && !pe.intDisabled x && !pe.heldByMask x &&
    target.implemented c

/-- Take a pending exception: it is no longer pending, the interrupted point is the current `pc`. -/
def PE.takeAsync (c : Config) (x : AsyncExc) (target : EL) (pe : PE) : PE :=
  if pe.mayTake c x target then (pe.mapArch (Arch.withdraw x)).takeException (.async x) target else pe

/-- The exception model starts the handler of an exception that was taken (log entry 20). -/
def PE.handlerStep (pc : Word) (m : Masks) (pe : PE) : PE :=
  if pe.handover.isSome && pcAligned pc then pe.enterHandler pc m else pe

/-- An exception return, on a PE that is not suspended (41_send_event.md R84; log entry 20). -/
def PE.returnStep (c : Config) (r : Resume) (pe : PE) : PE :=
  if decide (pe.lp.kind = .run) && pcAligned r.pc && r.el.implemented c then pe.exceptionReturn r else pe

/-! ### All moves -/

/-- What a move that is no instruction step does to the acting PE. `execute` is here only for a PE
that has no instruction step, and then nothing happens (10_state.md R16). -/
def PE.move (c : Config) (d : Draw) (m : Move) (pe : PE) : PE :=
  match m with
  | .execute => pe
  | .deliver _ => pe.receive d
  | .wake => pe.wakeStep d
  | .delayedTrap => pe.delayedTrapStep
  | .becomeIdle => pe.becomeIdle
  | .signalIdle => pe.signalIdle c
  | .serviceCapture => pe.serviceCapture
  | .powerDown => pe.powerDown c d
  | .reset => pe.resetStep c d
  | .env a => pe.environment c a
  | .takeAsync x target => pe.takeAsync c x target
  | .enterHandler pc m => pe.handlerStep pc m
  | .exceptionReturn r => pe.returnStep c r

/-- INFLIGHT after a move at PE `p`: a delivery takes one pair, a reset keeps or drops the pairs for
`p`, an event source adds one. -/
def inflightAfter (p : Nat) (d : Draw) (m : Move) (l : List (Nat × Cause)) : List (Nat × Cause) :=
  match m with
  | .deliver c => l.erase (p, c)
  | .reset => keepInflight p d.keep l
  | .env a =>
    match a.event with
    | some c => l ++ [(p, c)]
    | none => l
  | .execute | .wake | .delayedTrap | .becomeIdle | .signalIdle | .serviceCapture | .powerDown
  | .takeAsync _ _ | .enterHandler _ _ | .exceptionReturn _ => l

/-- Only an event that is in flight can be delivered (41_send_event.md R81). -/
def State.mayMove (s : State) (m : Move) : Bool :=
  match m with
  | .deliver c => decide ((s.turn.pe, c) ∈ s.inflight)
  | .execute | .wake | .delayedTrap | .becomeIdle | .signalIdle | .serviceCapture | .powerDown
  | .reset | .env _ | .takeAsync _ _ | .enterHandler _ _ | .exceptionReturn _ => true

/-- The effect of a move that is no instruction step. -/
def State.act (m : Move) (s : State) : State :=
  match s.acting? with
  | some pe =>
    if s.mayMove m then
      ({ s with inflight := inflightAfter s.turn.pe s.draw m s.inflight }).setActing
        (pe.move s.config s.draw m)
    else s
  | none => s

end Sys2Proof.Machine
end

