-- ==== Sys2Proof/Machine/SendEvent.lean ====
section
/-! DEFINITION. SEV and SEVL (41_send_event.md R77, R78). -/

namespace Sys2Proof.Machine

/-- One event of cause `SEV(q)` for every PE, `q` included (R77). -/
def sevPairs (n q : Nat) : List (Nat × Cause) := (List.range n).map fun p => (p, .sev q)

/-- One event of cause `IMPDEF` for every PE but `p` (R78, R79). -/
def broadcastPairs (n p : Nat) : List (Nat × Cause) :=
  ((List.range n).filter fun q => decide (q ≠ p)).map fun q => (q, .impdef)

/-- `SEV` (R77): it does not wait for delivery. -/
def execSev (s : State) : Result :=
  s.whenExecuting ((s.signal (sevPairs s.pes.length s.turn.pe)).mapActing (PE.advance s.draw))

/-- `SEVL` (R78): the local Event Register is set in this very step; other PEs may be signalled,
which is a free value (R79; log entry 6). -/
def execSevl (s : State) : Result :=
  s.whenExecuting
    ((s.signal (if s.draw.sevlBroadcast then broadcastPairs s.pes.length s.turn.pe else [])).mapActing
      fun pe => (pe.setER 1#1).advance s.draw)

end Sys2Proof.Machine
end

