-- ==== Sys2Proof/Machine/Operands.lean ====
section
/-! DEFINITION. The one operand form of the spec: a general register number (30_encoding.md R46). -/

namespace Sys2Proof.Machine

/-- `x[t]`, all 64 bits; number 31 reads as zero (10_state.md R20, 30_encoding.md R46). -/
def Arch.readX (a : Arch) (t : RegNum) : Word := if h : t.val < 31 then a.x[t.val] else 0#64

end Sys2Proof.Machine
end

