-- ==== Sys2Proof/Machine/WaitForEvent.lean ====
section
/-! DEFINITION. WFE and WFET (40_wait_for_event.md R55, R56). -/

namespace Sys2Proof.Machine

/-- The two branches of WFE and WFET: with the Event Register at 1 it is cleared and the instruction
completes, with no trap considered; with it at 0 the PE may attempt to suspend (R55, R56). -/
def PE.waitForEvent (c : Config) (d : Draw) (w : WFx) (timeout : Option Word) (pe : PE) : PE :=
  if pe.arch.er = 1#1 then (pe.setER 0#1).complete d else pe.attempt c d w timeout

/-- `WFE` (R55). -/
def execWfe (s : State) : Result :=
  s.whenExecuting
    (s.mapActing (PE.profilingFirst s.config s.draw (PE.waitForEvent s.config s.draw .wfe none)))

/-- `WFET Xt` (R56); it exists where FEAT_WFxT (R57, 30_encoding.md R48). -/
def execWfet (t : RegNum) (s : State) : Result :=
  if s.config.featWFxT then
    s.whenExecuting
      (s.mapActing
        (PE.profilingFirst s.config s.draw fun pe =>
          pe.waitForEvent s.config s.draw .wfet (some (pe.arch.readX t))))
  else .refused .featWFxTAbsent

end Sys2Proof.Machine
end

