-- ==== Sys2Proof/Machine/WaitForInterrupt.lean ====
section
/-! DEFINITION. WFI and WFIT (42_wait_for_interrupt.md R90, R91). Neither reads or writes the Event
Register (R106). -/

namespace Sys2Proof.Machine

/-- `WFI` (R90). -/
def execWfi (s : State) : Result :=
  s.whenExecuting
    (s.mapActing (PE.profilingFirst s.config s.draw (PE.attempt s.config s.draw .wfi none)))

/-- `WFIT Xt` (R91); it exists where FEAT_WFxT (R89, 30_encoding.md R48). -/
def execWfit (t : RegNum) (s : State) : Result :=
  if s.config.featWFxT then
    s.whenExecuting
      (s.mapActing
        (PE.profilingFirst s.config s.draw fun pe =>
          pe.attempt s.config s.draw .wfit (some (pe.arch.readX t))))
  else .refused .featWFxTAbsent

end Sys2Proof.Machine
end

