-- ==== Sys2Proof/Machine/Dispatch.lean ====
section
/-! DEFINITION. One arm per instruction. -/

namespace Sys2Proof.Machine

def exec (i : Instr) (s : State) : Host.Outcome State Fault Refusal :=
  match i with
  | .wfe => Sys2Proof.Machine.execWfe s
  | .wfi => Sys2Proof.Machine.execWfi s
  | .sev => Sys2Proof.Machine.execSev s
  | .sevl => Sys2Proof.Machine.execSevl s
  | .wfet t => Sys2Proof.Machine.execWfet t s
  | .wfit t => Sys2Proof.Machine.execWfit t s

end Sys2Proof.Machine
end

