-- ==== Sys2Proof/Machine/Fetch.lean ====
section
/-! DEFINITION. Fetching and decoding the instruction at a PE's program counter. -/

namespace Sys2Proof.Machine

/-- A decoder's refusal as the machine's. The fetch hands the decoder whole words, so `truncated` does not occur. -/
def refusalOf : DecodeRefusal → Refusal
  | .truncated => .notOfThisSpec 0#32
  | .notOfThisSpec w => .notOfThisSpec w
  | .featWFxTAbsent _ => .featWFxTAbsent

/-- The instruction at `pe`'s pc (20_memory.md R37, R38; 30_encoding.md R43, R48, R50). -/
def State.fetch (s : State) (pe : PE) : Host.Outcome Instr Fault Refusal :=
  if pcAligned pe.arch.pc then
    match s.mem.fetchWord pe.arch.pc.toNat with
    | .error a => .fault (.fetchUnwritten a)
    | .ok w =>
      match decode s.config w with
      | .ok i => .next i
      | .error e => .refused (refusalOf e)
  else .refused (.misalignedPc pe.arch.pc)

/-- Make the PE have an instruction step; on one that has it nothing changes. -/
def PE.readyToExecute (pe : PE) : PE :=
  if pe.executing then pe
  else { pe with lp := LowPower.running, idle := false, idleSignal := false, handover := none }

/-- Place a word at the acting PE's pc and make its instruction step the next move. -/
def State.placeWord (s : State) (w : InsnWord) : State :=
  match s.acting? with
  | some pe =>
    { (s.setActing pe.readyToExecute) with
      mem := s.mem.writeBytes pe.arch.pc.toNat (bytesOfWord w)
      turn := { s.turn with move := .execute } }
  | none => s

end Sys2Proof.Machine
end

