-- ==== Sys2Proof/Machine/Step.lean ====
section
/-! DEFINITION. One step of the machine: the move the turn names, at the PE it names; after it the
next turn and the next draws are free. -/

namespace Sys2Proof.Machine

/-- The PE whose instruction step this is: the turn says `execute` and the PE has one. -/
def State.executingPE? (s : State) : Option PE :=
  if s.turn.move = .execute then s.acting?.filter PE.executing else none

/-- One step. An instruction step fetches, decodes and executes; any other move acts, and a move
that is not enabled changes nothing. -/
def step (s : State) : Host.Outcome State Fault Refusal :=
  match s.executingPE? with
  | some pe =>
    match s.fetch pe with
    | .next i => rollOverResult (exec i s)
    | .fault f => .fault f
    | .refused r => .refused r
  | none => .next (s.act s.turn.move).rollOver

/-- `s` with the instruction whose table bits are `w` at the acting PE's pc, about to be executed.
It stands for loading a program from outside the machine (log entry 10). -/
def State.withFetchWord (s : State) (nbits w : Nat) : State := s.placeWord (tableWord nbits w)

end Sys2Proof.Machine
end

