-- ==== Sys2Proof/Safety.lean ====
section
/-! DEFINITION. What claims are stated in: the invariant of the reachable states, the machine with the
choice of turn and draw made explicit, runs, and the fairness premises of the spec (10_state.md R29,
70_reset_and_hazards.md R149, R150). -/

namespace Sys2Proof.Machine

/-! ### When an instruction's rule applies -/

/-- `pe` is the acting PE and has an instruction step. -/
abbrev State.Running (s : State) (pe : PE) : Prop := s.acting? = some pe ∧ pe.executing = true

/-- `pe` may run a waiting instruction: it is running, and no synchronous PMU Profiling exception is
to be taken first (60_exceptions.md R125). -/
abbrev State.WaitReady (s : State) (pe : PE) : Prop :=
  s.Running pe ∧ (s.config.featSEBEP = true → pe.arch.syncProfiling = false)

/-! ### The invariant -/

/-- The five invariants of 10_state.md R29, for one PE. -/
abbrev PE.LowPowerInv (c : Config) (pe : PE) : Prop :=
  (pe.lp.timeout.isSome = true →
    (pe.lp.kind = .wfe ∨ pe.lp.kind = .wfi) ∧ c.featWFxT = true) ∧
  (pe.lp.trap.isSome = true → pe.lp.kind = .wfe ∧ c.featTWED = true) ∧
  (pe.lp.kind = .wfe → pe.arch.er = 0#1) ∧
  (pe.idleSignal = true → pe.idle = true) ∧
  (pe.idle = true → pe.lp.kind = .wfi) ∧
  (pe.lp.kind = .off → c.wfiCanComplete = false)

/-- The shape the model keeps beside R29: the Exception level exists (10_state.md R23); unless powered
down, `pc` is a multiple of 4 (20_memory.md R38); an exception waits for the exception model only on a PE
that is not suspended; a delayed trap goes to a level that exists. -/
abbrev PE.ShapeInv (c : Config) (pe : PE) : Prop :=
  pe.arch.el.implemented c = true ∧
  (pe.lp.kind ≠ .off → pcAligned pe.arch.pc = true) ∧
  (pe.handover.isSome = true → pe.lp.kind = .run) ∧
  (∀ el ∈ pe.lp.trap, el.implemented c = true)

/-- The invariant of the machine: a PE exists, `RESET_PC` is aligned, memory is canonical, every
event in flight is for a PE that exists (10_state.md R19), and every PE meets R29 and its shape. -/
abbrev State.Inv (s : State) : Prop :=
  s.pes ≠ [] ∧ pcAligned s.config.resetPc = true ∧ s.mem.wf = true ∧
  (∀ e ∈ s.inflight, e.1 < s.pes.length) ∧
  ∀ pe ∈ s.pes, pe.LowPowerInv s.config ∧ pe.ShapeInv s.config

/-! ### Runs, with every choice the spec leaves free -/

/-- `s` with another turn and another draw: the choices the spec leaves to the agents. -/
def State.withChoice (s : State) (turn : Turn) (draw : Draw) : State :=
  { s with turn := turn, draw := draw }

/-- `t` may follow `s`, for some turn and some draw. -/
def State.CanStep (s t : State) : Prop := ∃ turn draw, step (s.withChoice turn draw) = .next t

/-- `t` is reachable from `s`, whatever the agents choose. -/
inductive State.Reaches (s : State) : State → Prop
  | refl : State.Reaches s s
  | step {t u : State} : State.Reaches s t → t.CanStep u → State.Reaches s u

/-- It is the turn of PE `p` and it executes a WFE or a WFET. -/
def State.RunsWaitForEvent (s : State) (p : Nat) : Prop :=
  s.turn = { pe := p, move := .execute } ∧ ∃ pe, s.Running pe ∧
    (s.fetch pe = .next .wfe ∨ ∃ r, s.fetch pe = .next (.wfet r))

/-- `t` is reachable from `s` by steps among which PE `p` executes no WFE or WFET, is not reset and does
not lose power: it may execute any other instruction, be suspended in WFI and wake, trap and return, and
the other agents, events, interrupts and the environment move freely. -/
inductive State.ReachesBeforeWait (p : Nat) (s : State) : State → Prop
  | refl : State.ReachesBeforeWait p s s
  | step {t u : State} {turn : Turn} {draw : Draw} : State.ReachesBeforeWait p s t →
      ¬ (t.withChoice turn draw).RunsWaitForEvent p →
      (turn.pe = p → turn.move ≠ .reset ∧ turn.move ≠ .powerDown) →
      step (t.withChoice turn draw) = .next u → State.ReachesBeforeWait p s u

/-- `i`, an instruction of the kind `w`, traps to `el` with `pc` and the Event Register as they were: at
once, or recorded as delayed where FEAT_TWED and a delay for that trap (`delay`) say so
(60_exceptions.md R112 to R116). -/
def State.TrapsTo (s : State) (pe : PE) (i : Instr) (w : WFx) (el : EL) (delay : Bool) : Prop :=
  ∃ t pe', exec i s = .next t ∧ t.acting? = some pe' ∧ pe'.arch.pc = pe.arch.pc ∧
    pe'.arch.er = pe.arch.er ∧
    (((s.config.featTWED && delay) = true ∧ pe'.lp.trap = some el ∧ pe'.arch.el = pe.arch.el) ∨
     ((s.config.featTWED && delay) = false ∧ pe'.arch.el = el ∧ pe'.handover = some
        { cause := .trap w, target := el, returnAddr := pe.arch.pc }))

/-- An infinite run `r` in which the agents choose the turns `turn` and the draws `draw`. -/
def IsRun (r : Nat → State) (turn : Nat → Turn) (draw : Nat → Draw) : Prop :=
  ∀ n, step ((r n).withChoice (turn n) (draw n)) = .next (r (n + 1))

/-! ### Fairness premises (70_reset_and_hazards.md R149); the machine promises none of them -/

/-- `WFEWakePending(p)` and `WFIWakePending(p)` for the PE's kind (40_wait_for_event.md R69,
42_wait_for_interrupt.md R105), where of the pending exceptions only those with `received` count. -/
def PE.WakePendingFrom (c : Config) (received : AsyncExc → Prop) (pe : PE) : Prop :=
  (pe.lp.kind = .wfe ∧
    ((∃ x ∈ pe.arch.pend, received x ∧ pe.excWakesWFE x = true) ∨ pe.debugWakes = true ∨
      pe.timeoutWakes c = true)) ∨
  (pe.lp.kind = .wfi ∧
    ((∃ x ∈ pe.arch.pend, received x ∧ pe.excWakesWFI x = true) ∨ pe.debugWakes = true ∨
      pe.inputs.impDefEvent = true ∨ pe.timeoutWakes c = true))

/-- PE `p` is suspended and a wakeup event for it is pending: every pending exception counts. -/
def State.WakePending (s : State) (p : Nat) : Prop :=
  ∃ pe, s.pes[p]? = some pe ∧ pe.WakePendingFrom s.config fun _ => True

/-- A wake of PE `p` that is guaranteed where the exceptions with `received` count: with
`WFI_CAN_COMPLETE` false "no wake is guaranteed" to a WFI or WFIT (42_wait_for_interrupt.md R105). -/
def State.WakeOwedFrom (s : State) (p : Nat) (received : AsyncExc → Prop) : Prop :=
  ∃ pe, s.pes[p]? = some pe ∧ pe.WakePendingFrom s.config received ∧
    (pe.lp.kind = .wfi → s.config.wfiCanComplete = true)

/-- A wake that is guaranteed under the level reading of "received" (92_eei_decisions.md D9). -/
def State.WakeOwed (s : State) (p : Nat) : Prop := s.WakeOwedFrom p fun _ => True

/-- PE `p` is suspended in WFE, WFET, WFI or WFIT. -/
def State.Suspended (s : State) (p : Nat) : Prop :=
  ∃ pe, s.pes[p]? = some pe ∧ (pe.lp.kind = .wfe ∨ pe.lp.kind = .wfi)

/-- `x` came to be pending while PE `p` was suspended as it is at moment `m`: at some moment of that same
suspension it was not pending yet. One that was pending before the PE suspended, and stayed so, did not,
whether it was masked or disabled then or not (92_eei_decisions.md D9; log entry 40). -/
def ArrivedSuspended (r : Nat → State) (p m : Nat) (x : AsyncExc) : Prop :=
  ∃ k, k ≤ m ∧ (∀ j, k ≤ j → j ≤ m → (r j).Suspended p) ∧
    ∃ pe, (r k).pes[p]? = some pe ∧ x ∉ pe.arch.pend

/-- R149(a) with R149(d), `WAKE_ON_ALREADY_PENDING`: a wake owed for ever from some point on is taken,
whenever the interrupt became pending. -/
def WakeFair (r : Nat → State) (turn : Nat → Turn) (p : Nat) : Prop :=
  ∀ n, (∀ m, n ≤ m → (r m).WakeOwed p) → ∃ m, n ≤ m ∧ turn m = { pe := p, move := .wake }

/-- R149(a) without R149(d): of the pending exceptions only those that arrived during the suspension
count as "received". A debug request, an IMPLEMENTATION DEFINED event and an expired threshold (R73) are
no interrupts that were pending before and count as in `WakeFair`. -/
def WakeFairOnArrival (r : Nat → State) (turn : Nat → Turn) (p : Nat) : Prop :=
  ∀ n, (∀ m, n ≤ m → (r m).WakeOwedFrom p (ArrivedSuspended r p m)) →
    ∃ m, n ≤ m ∧ turn m = { pe := p, move := .wake }

/-- `EVENT_DELIVERY_FAIR`: an event in flight is in time delivered, unless its target is reset. -/
def EventDeliveryFair (r : Nat → State) (turn : Nat → Turn) : Prop :=
  ∀ n p c, (p, c) ∈ (r n).inflight →
    ∃ m, n ≤ m ∧ (turn m = { pe := p, move := .deliver c } ∨ turn m = { pe := p, move := .reset })

/-- The virtual count PE `p` sees; 0 where there is no such PE. -/
def State.counterOf (s : State) (p : Nat) : Nat :=
  match s.pes[p]? with
  | some pe => pe.arch.cntvct.toNat
  | none => 0

/-- `COUNTER_PROGRESS`: the counter of `p` in time equals or exceeds any given value. -/
def CounterProgress (r : Nat → State) (p : Nat) : Prop :=
  ∀ v : Word, ∀ n, ∃ m, n ≤ m ∧ v.toNat ≤ (r m).counterOf p

/-- The counter of `p` never decreases (general knowledge of the spec, 92_eei_decisions.md D21). -/
def CounterNeverDecreases (r : Nat → State) (p : Nat) : Prop :=
  ∀ n, (r n).counterOf p ≤ (r (n + 1)).counterOf p

/-- Where a WFI powerdown mechanism is implemented, `Quiet(p)` in time holds for a PE that stays
suspended in WFI or WFIT (60_exceptions.md R129). -/
def QuietInTime (r : Nat → State) (p : Nat) : Prop :=
  ∀ n, (r n).config.wfiPowerdown = true →
    (∀ m, n ≤ m → ∃ pe, (r m).pes[p]? = some pe ∧ pe.lp.kind = .wfi) →
    ∃ m, n ≤ m ∧ ∃ pe, (r m).pes[p]? = some pe ∧ pe.inputs.quiet = true

/-- R149(e): a delayed trap that stays enabled for ever is taken. -/
def DelayedTrapFair (r : Nat → State) (turn : Nat → Turn) (p : Nat) : Prop :=
  ∀ n, (∀ m, n ≤ m → ∃ pe, (r m).pes[p]? = some pe ∧ pe.lp.kind = .wfe ∧ pe.lp.trap.isSome = true) →
    ∃ m, n ≤ m ∧ turn m = { pe := p, move := .delayedTrap }

/-! ### The end of a run (70_reset_and_hazards.md R150) -/

/-- The PE has an instruction step and the word at its `pc` is no instruction of this spec on this
implementation (30_encoding.md R48, R50). -/
def State.AtForeignWord (s : State) (pe : PE) : Prop :=
  pe.executing = true ∧
    ((∃ w, s.fetch pe = .refused (.notOfThisSpec w)) ∨ s.fetch pe = .refused .featWFxTAbsent)

/-- The run of PE `p` has ended, for this spec alone: an exception waits for an exception model, the
word to execute is no instruction of this spec (a refused word, 92_eei_decisions.md D16), or the PE is
powered down.

DESIGN CHOICE, unsafe, log entry 41: R150 names the outcome `Trap(el, i)` only. Here a waiting exception
of ANY cause ends the run: a trap, a taken asynchronous exception (60_exceptions.md R119) and a taken
synchronous PMU Profiling exception (R125). And an exception counts as not handed on while it waits: a
later move of the exception model takes the PE out of `Ended`. -/
def State.Ended (s : State) (p : Nat) : Prop :=
  ∃ pe, s.pes[p]? = some pe ∧
    (pe.handover.isSome = true ∨ s.AtForeignWord pe ∨ pe.lp.kind = .off)

/-- An event in flight that is a wake: its target is suspended in WFE or WFET. To a PE in WFI it is none
(42_wait_for_interrupt.md R106). -/
def State.WakeInFlight (s : State) : Prop :=
  ∃ p c pe, (p, c) ∈ s.inflight ∧ s.pes[p]? = some pe ∧ pe.lp.kind = .wfe

/-- Every PE is suspended and no wake is pending or in flight: a deadlock, not a final state. -/
def State.Deadlocked (s : State) : Prop :=
  (∀ pe ∈ s.pes, pe.lp.kind = .wfe ∨ pe.lp.kind = .wfi) ∧
  (∀ p, ¬ s.WakePending p) ∧ ¬ s.WakeInFlight

end Sys2Proof.Machine
end

