-- ==== Sys2Proof/Certificates/Slice0/Obligations.lean ====
section
/-! DEFINITION. The statements for the provers. Each docstring names the rule of spec/ it comes from. -/

open Sys2Proof Sys2Proof.Machine

/-! ### Encoding and the instruction step -/

/-- 30_encoding.md R47, R50: the words of the six rows, and words of neighbouring encodings; 20_memory.md
R37: the word `0xD503205F` lies in memory as the bytes `5F 20 03 D5` at ascending addresses.
The bit patterns and the byte order are the spec's general knowledge (log entries 21 and 39). -/
def Obligations.SpecWordsDecode : Prop :=
  decode tableConfig 0xD503205F#32 = .ok .wfe ∧
  decode tableConfig 0xD503207F#32 = .ok .wfi ∧
  decode tableConfig 0xD503209F#32 = .ok .sev ∧
  decode tableConfig 0xD50320BF#32 = .ok .sevl ∧
  decode tableConfig 0xD5031003#32 = .ok (.wfet 3) ∧
  decode tableConfig 0xD503103E#32 = .ok (.wfit 30) ∧
  decode tableConfig 0xD503201F#32 = .error (.notOfThisSpec 0xD503201F#32) ∧
  decode tableConfig 0xD503215F#32 = .error (.notOfThisSpec 0xD503215F#32) ∧
  decode tableConfig 0xD5031040#32 = .error (.notOfThisSpec 0xD5031040#32) ∧
  decodeBytes tableConfig [0x5F#8, 0x20#8, 0x03#8, 0xD5#8] = .ok (.wfe, []) ∧
  Memory.fetchWord [(0x1000, 0x5F#8), (0x1001, 0x20#8), (0x1002, 0x03#8), (0x1003, 0xD5#8)] 0x1000 =
    .ok 0xD503205F#32

/-- 30_encoding.md R43 to R47, 20_memory.md R37: decoding the bytes of an instruction gives it back,
with every register number, and leaves the bytes after it.
The bit patterns are the spec's general knowledge (log entry 21). -/
def Obligations.DecodeOfEncodeIsIdentity : Prop :=
  ∀ (c : Config) (i : Instr) (rest : List Byte), i.wellFormed c = true →
    decodeBytes c (encodeBytes i ++ rest) = .ok (i, rest)

/-- 30_encoding.md R47: each instruction has one word: what decodes to it is its encoding.
The bit patterns are the spec's general knowledge (log entry 21). -/
def Obligations.EncodeOfDecodeIsIdentity : Prop :=
  ∀ (c : Config) (w : InsnWord) (i : Instr), decode c w = .ok i →
    encode i = w ∧ i.wellFormed c = true

/-- 30_encoding.md R47, R48: the decoder selects a row exactly when `(w & mask) == match`, and reads
`Rt` from bits 4:0; the two format T rows need FEAT_WFxT.
The bit patterns are the spec's general knowledge (log entry 21). -/
def Obligations.DecodeFollowsMaskAndMatch : Prop :=
  ∀ (c : Config) (w : InsnWord),
    (decode c w = .ok .wfe ↔ w &&& 0xFFFFFFFF#32 = 0xD503205F#32) ∧
    (decode c w = .ok .wfi ↔ w &&& 0xFFFFFFFF#32 = 0xD503207F#32) ∧
    (decode c w = .ok .sev ↔ w &&& 0xFFFFFFFF#32 = 0xD503209F#32) ∧
    (decode c w = .ok .sevl ↔ w &&& 0xFFFFFFFF#32 = 0xD50320BF#32) ∧
    (∀ t : RegNum, decode c w = .ok (.wfet t) ↔
      c.featWFxT = true ∧ w &&& 0xFFFFFFE0#32 = 0xD5031000#32 ∧ t.val = w.toNat % 32) ∧
    (∀ t : RegNum, decode c w = .ok (.wfit t) ↔
      c.featWFxT = true ∧ w &&& 0xFFFFFFE0#32 = 0xD5031020#32 ∧ t.val = w.toNat % 32)

/-- 30_encoding.md R50: the machine refuses a word that matches none of the six rows, by name. -/
def Obligations.OtherWordsRefused : Prop :=
  ∀ (s : State) (pe : PE) (w : InsnWord), s.turn.move = .execute → s.Running pe →
    pcAligned pe.arch.pc = true → s.mem.fetchWord pe.arch.pc.toNat = .ok w →
    w ∉ [0xD503205F#32, 0xD503207F#32, 0xD503209F#32, 0xD50320BF#32] →
    w &&& 0xFFFFFFE0#32 ≠ 0xD5031000#32 → w &&& 0xFFFFFFE0#32 ≠ 0xD5031020#32 →
    step s = .refused (.notOfThisSpec w)

/-- 30_encoding.md R48: without FEAT_WFxT the two format T words are refused by name, and so are the
two terms.
To refuse is the spec's decision D23 (log entry 22). -/
def Obligations.TimedRefusedWithoutWFxT : Prop :=
  ∀ (c : Config) (s : State) (t : RegNum), c.featWFxT = false → s.config = c →
    decode c (encode (.wfet t)) = .error (.featWFxTAbsent (encode (.wfet t))) ∧
    decode c (encode (.wfit t)) = .error (.featWFxTAbsent (encode (.wfit t))) ∧
    exec (.wfet t) s = .refused .featWFxTAbsent ∧
    exec (.wfit t) s = .refused .featWFxTAbsent

/-- A step runs the decoded instruction: where the turn is an instruction step of a running PE and the
four bytes from its pc on, the first the least significant (20_memory.md R37), make a word that decodes
to `i`, the step is `exec i`, and after a next state the turn, the draw and the counter are refilled and
nothing else changes.
The refill is the model's own (log entries 5 and 6); the byte order is the spec's general knowledge (log
entry 39). -/
def Obligations.StepRunsDecodedInstruction : Prop :=
  ∀ (s : State) (pe : PE) (w : InsnWord) (i : Instr) (b0 b1 b2 b3 : Byte),
    s.turn.move = .execute → s.Running pe → pcAligned pe.arch.pc = true →
    s.mem.read pe.arch.pc.toNat = some b0 → s.mem.read (pe.arch.pc.toNat + 1) = some b1 →
    s.mem.read (pe.arch.pc.toNat + 2) = some b2 → s.mem.read (pe.arch.pc.toNat + 3) = some b3 →
    w.toNat = b0.toNat + 2 ^ 8 * b1.toNat + 2 ^ 16 * b2.toNat + 2 ^ 24 * b3.toNat →
    decode s.config w = .ok i →
    (∀ t, exec i s = .next t → step s = .next
      { t with turn := Config.freeTurn t.tick, draw := Config.freeDraw t.tick, tick := t.tick + 1 }) ∧
    (∀ f, exec i s = .fault f → step s = .fault f) ∧
    (∀ r, exec i s = .refused r → step s = .refused r)

/-- 20_memory.md R38: a pc that is not a multiple of 4 is refused; a fetch in which one of the four
bytes has no value faults at the first such byte (the model's choices, log entries 8 and 11). -/
def Obligations.FetchStops : Prop :=
  ∀ (s : State) (pe : PE), s.turn.move = .execute → s.Running pe →
    (pcAligned pe.arch.pc = false → step s = .refused (.misalignedPc pe.arch.pc)) ∧
    (∀ k, pcAligned pe.arch.pc = true → k < 4 →
      (∀ j, j < k → s.mem.read (pe.arch.pc.toNat + j) ≠ none) →
      s.mem.read (pe.arch.pc.toNat + k) = none →
      step s = .fault (.fetchUnwritten (pe.arch.pc.toNat + k)))

/-- 10_state.md R20, 30_encoding.md R46: the operand is all 64 bits of the register, and register
number 31 reads as zero.
Register forms are the spec's general knowledge (log entry 39). -/
def Obligations.RegisterOperandRead : Prop :=
  ∀ a : Arch, a.readX 31 = 0#64 ∧ ∀ (n : Nat) (h : n < 31), a.readX ⟨n, by omega⟩ = a.x[n]

/-- 10_state.md R17, R21: completing leaves the PE running with nothing pending in its low-power
record and both idle flags false, 4 bytes on wherever that is an address, and changes nothing else.
Going on by 4 is the spec's general knowledge (log entry 39). -/
def Obligations.CompleteGoesOnFourBytes : Prop :=
  ∀ (d : Draw) (pe : PE), pe.arch.pc.toNat + 4 < 2 ^ 64 →
    pe.complete d =
      { pe with
        arch := { pe.arch with pc := pe.arch.pc + 4#64 }
        lp := { kind := .run, timeout := none, trap := none }
        idle := false
        idleSignal := false } ∧
    (pe.arch.pc + 4#64).toNat = pe.arch.pc.toNat + 4

/-! ### WFE and WFET -/

/-- 40_wait_for_event.md R55, R56, 60_exceptions.md R110(a): with the Event Register at 1, WFE and
WFET clear it and complete, whatever is drawn and whatever the trap controls say. -/
def Obligations.WaitForEventClearsAndCompletes : Prop :=
  ∀ (s : State) (pe : PE), s.WaitReady pe → pe.arch.er = 1#1 →
    let t := s.setActing
      { pe with
        arch := { pe.arch with er := 0#1, pc := nextPc s.draw pe.arch.pc }
        lp := { kind := .run, timeout := none, trap := none }
        idle := false
        idleSignal := false }
    exec .wfe s = .next t ∧
    (s.config.featWFxT = true → ∀ r : RegNum, exec (.wfet r) s = .next t)

/-- 40_wait_for_event.md R55, R56, R59, 60_exceptions.md R110(b): with the Event Register at 0 and a
PE that does not enter, WFE and WFET complete and change nothing else, and no trap is taken. -/
def Obligations.WaitForEventNotEntering : Prop :=
  ∀ (s : State) (pe : PE), s.WaitReady pe → pe.arch.er = 0#1 → s.draw.enter = false →
    let t := s.setActing
      { pe with
        arch := { pe.arch with pc := nextPc s.draw pe.arch.pc }
        lp := { kind := .run, timeout := none, trap := none }
        idle := false
        idleSignal := false }
    exec .wfe s = .next t ∧
    (s.config.featWFxT = true → ∀ r : RegNum, exec (.wfet r) s = .next t)

/-- 40_wait_for_event.md R55, R56: with the Event Register at 0, a PE that enters and no trap, WFE
and WFET suspend, WFET with its threshold; `pc` stays at the instruction. -/
def Obligations.WaitForEventSuspends : Prop :=
  ∀ (s : State) (pe : PE), s.WaitReady pe → pe.arch.er = 0#1 → s.draw.enter = true →
    (pe.trapTarget s.config .wfe = none →
      exec .wfe s = .next (s.setActing
        { pe with lp := { kind := .wfe, timeout := none, trap := none } })) ∧
    (pe.trapTarget s.config .wfet = none → s.config.featWFxT = true → ∀ r : RegNum,
      exec (.wfet r) s = .next (s.setActing
        { pe with lp := { kind := .wfe, timeout := some (pe.arch.readX r), trap := none } }))

/-- 40_wait_for_event.md R55, R56, 60_exceptions.md R116: with the Event Register at 0, a PE that
enters and a trap without delay, the trap is taken: `EL` becomes the target, `pc` stays, the
instruction has no other effect. That masks and all else survive the entry, and the handover record that
waits, are the model's choice (log entry 13): R116 puts them outside the sources. -/
def Obligations.WaitForEventTraps : Prop :=
  ∀ (s : State) (pe : PE) (el : EL), s.WaitReady pe → pe.arch.er = 0#1 → s.draw.enter = true →
    (pe.trapTarget s.config .wfe = some el → pe.trapDelayed s.config .wfe el = false →
      exec .wfe s = .next (s.setActing
        { pe with
          arch := { pe.arch with el := el }
          lp := { kind := .run, timeout := none, trap := none }
          idle := false
          idleSignal := false
          handover := some { cause := .trap .wfe, target := el, returnAddr := pe.arch.pc } })) ∧
    (pe.trapTarget s.config .wfet = some el → pe.trapDelayed s.config .wfet el = false →
      s.config.featWFxT = true → ∀ r : RegNum,
      exec (.wfet r) s = .next (s.setActing
        { pe with
          arch := { pe.arch with el := el }
          lp := { kind := .run, timeout := none, trap := none }
          idle := false
          idleSignal := false
          handover := some { cause := .trap .wfet, target := el, returnAddr := pe.arch.pc } }))

/-- 40_wait_for_event.md R55, R56, 60_exceptions.md R114: with a delay configured for that trap the PE
suspends instead, with the trap recorded. -/
def Obligations.WaitForEventDelaysTrap : Prop :=
  ∀ (s : State) (pe : PE) (el : EL), s.WaitReady pe → pe.arch.er = 0#1 → s.draw.enter = true →
    s.config.featTWED = true → pe.arch.controls.delayAt el = true →
    (pe.trapTarget s.config .wfe = some el →
      exec .wfe s = .next (s.setActing
        { pe with lp := { kind := .wfe, timeout := none, trap := some el } })) ∧
    (pe.trapTarget s.config .wfet = some el → s.config.featWFxT = true → ∀ r : RegNum,
      exec (.wfet r) s = .next (s.setActing
        { pe with lp := { kind := .wfe, timeout := some (pe.arch.readX r), trap := some el } }))

/-! ### WFI and WFIT -/

/-- 42_wait_for_interrupt.md R90, R91, R93: a PE that does not enter completes, whatever the Event
Register and the trap controls hold, and changes nothing else. -/
def Obligations.WaitForInterruptNotEntering : Prop :=
  ∀ (s : State) (pe : PE), s.WaitReady pe → s.draw.enter = false →
    let t := s.setActing
      { pe with
        arch := { pe.arch with pc := nextPc s.draw pe.arch.pc }
        lp := { kind := .run, timeout := none, trap := none }
        idle := false
        idleSignal := false }
    exec .wfi s = .next t ∧
    (s.config.featWFxT = true → ∀ r : RegNum, exec (.wfit r) s = .next t)

/-- 42_wait_for_interrupt.md R90, R91, R106: a PE that enters and has no trap suspends, whatever the
Event Register holds, which stays as it is. -/
def Obligations.WaitForInterruptSuspends : Prop :=
  ∀ (s : State) (pe : PE), s.WaitReady pe → s.draw.enter = true →
    (pe.trapTarget s.config .wfi = none →
      exec .wfi s = .next (s.setActing
        { pe with lp := { kind := .wfi, timeout := none, trap := none } })) ∧
    (pe.trapTarget s.config .wfit = none → s.config.featWFxT = true → ∀ r : RegNum,
      exec (.wfit r) s = .next (s.setActing
        { pe with lp := { kind := .wfi, timeout := some (pe.arch.readX r), trap := none } }))

/-- 42_wait_for_interrupt.md R90, R91, 60_exceptions.md R114, R116: a trap of WFI or WFIT is taken at
once, whatever delay is configured. That masks and all else survive the entry, and the handover record
that waits, are the model's choice (log entry 13): R116 puts them outside the sources. -/
def Obligations.WaitForInterruptTraps : Prop :=
  ∀ (s : State) (pe : PE) (el : EL), s.WaitReady pe → s.draw.enter = true →
    (pe.trapTarget s.config .wfi = some el →
      exec .wfi s = .next (s.setActing
        { pe with
          arch := { pe.arch with el := el }
          lp := { kind := .run, timeout := none, trap := none }
          idle := false
          idleSignal := false
          handover := some { cause := .trap .wfi, target := el, returnAddr := pe.arch.pc } })) ∧
    (pe.trapTarget s.config .wfit = some el → s.config.featWFxT = true → ∀ r : RegNum,
      exec (.wfit r) s = .next (s.setActing
        { pe with
          arch := { pe.arch with el := el }
          lp := { kind := .run, timeout := none, trap := none }
          idle := false
          idleSignal := false
          handover := some { cause := .trap .wfit, target := el, returnAddr := pe.arch.pc } }))

/-- 60_exceptions.md R125: where FEAT_SEBEP, a pending synchronous PMU Profiling exception is taken
before the waiting instruction has any effect of its own. The level, which is free, and that the pending
flag is cleared are the model's choice (log entry 17); that masks and all else survive the entry, and the
handover record that waits, are the model's choice too (log entry 13). -/
def Obligations.SyncProfilingTakenFirst : Prop :=
  ∀ (s : State) (pe : PE), s.Running pe → s.config.featSEBEP = true → pe.arch.syncProfiling = true →
    let t := s.setActing
      { pe with
        arch := { pe.arch with el := s.draw.profilingLevel.legal s.config, syncProfiling := false }
        lp := { kind := .run, timeout := none, trap := none }
        idle := false
        idleSignal := false
        handover := some
          { cause := .syncProfiling
            target := s.draw.profilingLevel.legal s.config
            returnAddr := pe.arch.pc } }
    exec .wfe s = .next t ∧ exec .wfi s = .next t ∧
    (s.config.featWFxT = true → ∀ r : RegNum,
      exec (.wfet r) s = .next t ∧ exec (.wfit r) s = .next t)

/-- 40_wait_for_event.md R75, 42_wait_for_interrupt.md R107, 20_memory.md R30: what WFE, WFET, WFI and
WFIT leave unchanged: memory, the events in flight, every other PE, every general register, mask,
control and pending exception; the Event Register but for WFE and WFET at 1; the level and the pending
profiling exception but where an exception is taken. That masks and the rest survive there too is the
model's choice (log entry 13), and that the profiling flag is cleared (log entry 17). -/
def Obligations.WaitFrame : Prop :=
  ∀ (i : Instr) (s t : State), i ≠ .sev → i ≠ .sevl → exec i s = .next t →
    t.config = s.config ∧ t.inflight = s.inflight ∧ (∀ a, t.mem.read a = s.mem.read a) ∧
    t.turn = s.turn ∧ t.draw = s.draw ∧ t.tick = s.tick ∧ t.pes.length = s.pes.length ∧
    (∀ q, q ≠ s.turn.pe → t.pes[q]? = s.pes[q]?) ∧
    ∃ pe pe', s.acting? = some pe ∧ t.acting? = some pe' ∧
      pe'.inputs = pe.inputs ∧ pe'.arch.x = pe.arch.x ∧ pe'.arch.masks = pe.arch.masks ∧
      pe'.arch.controls = pe.arch.controls ∧ pe'.arch.cntvct = pe.arch.cntvct ∧
      pe'.arch.pend = pe.arch.pend ∧ pe'.arch.edbgrq = pe.arch.edbgrq ∧
      pe'.arch.capture = pe.arch.capture ∧ pe'.arch.profiling = pe.arch.profiling ∧
      (pe'.arch.er = pe.arch.er ∨
        ((i = .wfe ∨ ∃ r, i = .wfet r) ∧ pe.arch.er = 1#1 ∧ pe'.arch.er = 0#1)) ∧
      (pe'.arch.el = pe.arch.el ∨
        ∃ h, pe'.handover = some h ∧ h.target = pe'.arch.el ∧ h.returnAddr = pe.arch.pc) ∧
      (pe'.arch.syncProfiling = pe.arch.syncProfiling ∨
        ∃ h, pe'.handover = some h ∧ h.cause = .syncProfiling) ∧
      (pe'.arch.pc = pe.arch.pc ∨ pe'.arch.pc = nextPc s.draw pe.arch.pc)

/-! ### SEV and SEVL -/

/-- 41_send_event.md R77: SEV puts one event in flight for every PE, its own included, and goes on; it
changes nothing else: no Event Register, no other PE, no byte of memory. -/
def Obligations.SevSignalsEveryPE : Prop :=
  ∀ (s : State) (pe : PE), s.Running pe → ∃ t, exec .sev s = .next t ∧
    (∀ p c, t.inflight.count (p, c) =
      s.inflight.count (p, c) + if p < s.pes.length ∧ c = .sev s.turn.pe then 1 else 0) ∧
    t.acting? = some { pe with arch := { pe.arch with pc := nextPc s.draw pe.arch.pc } } ∧
    (∀ q, q ≠ s.turn.pe → t.pes[q]? = s.pes[q]?) ∧ (∀ a, t.mem.read a = s.mem.read a) ∧
    t.config = s.config ∧ t.turn = s.turn ∧ t.draw = s.draw ∧ t.tick = s.tick

/-- 41_send_event.md R78, R79: SEVL sets the Event Register of its own PE in its own step; other PEs
get an event only where the implementation broadcasts it, and then every other PE exactly one. -/
def Obligations.SevlSetsLocalEventRegister : Prop :=
  ∀ (s : State) (pe : PE), s.Running pe → ∃ t, exec .sevl s = .next t ∧
    (∀ p c, t.inflight.count (p, c) = s.inflight.count (p, c) +
      if s.draw.sevlBroadcast = true ∧ p < s.pes.length ∧ p ≠ s.turn.pe ∧ c = .impdef
      then 1 else 0) ∧
    t.acting? = some
      { pe with arch := { pe.arch with er := 1#1, pc := nextPc s.draw pe.arch.pc } } ∧
    (∀ q, q ≠ s.turn.pe → t.pes[q]? = s.pes[q]?) ∧ (∀ a, t.mem.read a = s.mem.read a) ∧
    t.config = s.config ∧ t.turn = s.turn ∧ t.draw = s.draw ∧ t.tick = s.tick

/-- 41_send_event.md R82: after SEVL the next WFE or WFET of the PE clears the Event Register and
completes: it never suspends. In between the PE may execute any other instruction (SEV, SEVL, WFI, WFIT),
be suspended in WFI, trap and return, and the other agents move and events and interrupts come freely.
A reset and a loss of power, which leave the Event Register UNKNOWN, are ruled out. -/
def Obligations.SevlThenWaitNeverSuspends : Prop :=
  ∀ (s t u : State) (pe : PE) (d : Draw), exec .sevl s = .next t →
    t.ReachesBeforeWait s.turn.pe u →
    (u.withChoice { pe := s.turn.pe, move := .execute } d).WaitReady pe →
    ∃ v pe', exec .wfe (u.withChoice { pe := s.turn.pe, move := .execute } d) = .next v ∧
      (u.config.featWFxT = true → ∀ r : RegNum,
        exec (.wfet r) (u.withChoice { pe := s.turn.pe, move := .execute } d) = .next v) ∧
      v.pes[s.turn.pe]? = some pe' ∧ pe'.lp.kind = .run ∧ pe'.handover = none ∧
      pe'.arch.er = 0#1 ∧ pe'.arch.pc = nextPc d pe.arch.pc

/-- 41_send_event.md R83: SEV gives its own PE no such guarantee: the WFE that follows at once may
suspend, with the PE's own event still in flight. -/
def Obligations.SevThenWfeMaySuspend : Prop :=
  ∀ (s : State) (pe : PE) (d : Draw), s.WaitReady pe → pe.arch.er = 0#1 →
    pe.trapTarget s.config .wfe = none → d.enter = true →
    ∃ t u pe', exec .sev s = .next t ∧ exec .wfe { t with draw := d } = .next u ∧
      u.acting? = some pe' ∧ pe'.lp.kind = .wfe ∧ (s.turn.pe, .sev s.turn.pe) ∈ u.inflight

/-! ### Traps -/

/-- 60_exceptions.md R112(d), R113: the trap a waiting instruction takes goes to a level that exists,
is higher than the executing one and traps the instruction, and no lower level does.
The controls are those of the model's instance of `TrapTarget` (PRESUMED, log entry 14), the handover
record is the model's (log entry 13). -/
def Obligations.TrapTakenIsTheLowest : Prop :=
  ∀ (i : Instr) (s t : State) (pe pe' : PE) (w : WFx) (h : Handover), exec i s = .next t →
    s.acting? = some pe → t.acting? = some pe' → pe'.handover = some h → h.cause = .trap w →
    h.target = pe'.arch.el ∧ h.target.implemented s.config = true ∧
    pe.arch.el.rank < h.target.rank ∧ pe.arch.controls.traps w h.target = true ∧
    ∀ e : EL, e.implemented s.config = true → pe.arch.el.rank < e.rank →
      pe.arch.controls.traps w e = true → h.target.rank ≤ e.rank

/-- 60_exceptions.md R112, R113, R114, 95_test_vectors.md V1: which attempts trap, written out from the
six rows of R112. R112 itself states that nTWE at 0 traps WFE to EL1, that HCR_EL2.TWE at 1 traps it to
EL2, that EL1 wins where both apply, and that WFET shares the WFE trap; the rows for WFI and WFIT, the rows
for EL3 and from which levels the controls trap are PRESUMED (log entry 14). One delay for each target
level is DEDUCED (log entry 15), the handover record is the model's (log entry 13). -/
def Obligations.NamedControlsTrap : Prop :=
  ∀ (s : State) (pe : PE), s.WaitReady pe → s.draw.enter = true →
    (∀ (i : Instr) (w : WFx),
      (i = .wfe ∧ w = .wfe) ∨ (s.config.featWFxT = true ∧ (∃ r, i = .wfet r) ∧ w = .wfet) →
      pe.arch.er = 0#1 →
      (pe.arch.el = .el0 → pe.arch.controls.nTWE = 0#1 →
        s.TrapsTo pe i w .el1 pe.arch.controls.delayEL1) ∧
      ((pe.arch.el = .el0 ∧ pe.arch.controls.nTWE = 1#1) ∨ pe.arch.el = .el1 →
        (pe.arch.controls.hcrTWE = 1#1 → s.config.haveEL2 = true →
          s.TrapsTo pe i w .el2 pe.arch.controls.delayEL2) ∧
        (pe.arch.controls.hcrTWE = 0#1 ∨ s.config.haveEL2 = false →
          pe.arch.controls.scrTWE = 1#1 → s.config.haveEL3 = true →
          s.TrapsTo pe i w .el3 pe.arch.controls.delayEL3)) ∧
      (pe.arch.el = .el2 → pe.arch.controls.scrTWE = 1#1 → s.config.haveEL3 = true →
        s.TrapsTo pe i w .el3 pe.arch.controls.delayEL3)) ∧
    (∀ (i : Instr) (w : WFx),
      (i = .wfi ∧ w = .wfi) ∨ (s.config.featWFxT = true ∧ (∃ r, i = .wfit r) ∧ w = .wfit) →
      (pe.arch.el = .el0 → pe.arch.controls.nTWI = 0#1 → s.TrapsTo pe i w .el1 false) ∧
      ((pe.arch.el = .el0 ∧ pe.arch.controls.nTWI = 1#1) ∨ pe.arch.el = .el1 →
        (pe.arch.controls.hcrTWI = 1#1 → s.config.haveEL2 = true → s.TrapsTo pe i w .el2 false) ∧
        (pe.arch.controls.hcrTWI = 0#1 ∨ s.config.haveEL2 = false →
          pe.arch.controls.scrTWI = 1#1 → s.config.haveEL3 = true →
          s.TrapsTo pe i w .el3 false)) ∧
      (pe.arch.el = .el2 → pe.arch.controls.scrTWI = 1#1 → s.config.haveEL3 = true →
        s.TrapsTo pe i w .el3 false))

/-- 60_exceptions.md R115: the delay controls do not change which trap is taken, neither when it is
decided nor when a delayed one falls due.
One delay control for each target level is DEDUCED (log entry 15), the handover record is the model's
(log entry 13). -/
def Obligations.DelayDoesNotAffectPriority : Prop :=
  (∀ (c : Config) (pe : PE) (w : WFx) (d1 d2 d3 : Bool),
    PE.trapTarget c
      { pe with arch := { pe.arch with controls :=
          { pe.arch.controls with delayEL1 := d1, delayEL2 := d2, delayEL3 := d3 } } } w =
      pe.trapTarget c w) ∧
  (∀ (s t : State) (pe pe' : PE) (el : EL) (r : RegNum), s.acting? = some pe →
    t.acting? = some pe' → pe'.lp.trap = some el →
    (exec .wfe s = .next t → pe.trapTarget s.config .wfe = some el) ∧
    (exec (.wfet r) s = .next t → pe.trapTarget s.config .wfet = some el)) ∧
  (∀ (s : State) (pe : PE) (el : EL), s.acting? = some pe → s.turn.move = .delayedTrap →
    pe.lp.kind = .wfe → pe.lp.trap = some el → ∃ t pe' h, step s = .next t ∧
    t.pes[s.turn.pe]? = some pe' ∧ pe'.handover = some h ∧ h.target = el ∧ pe'.arch.el = el)

/-- 60_exceptions.md R114: a delayed trap step takes exactly the trap that was decided, with `pc` at
the suspended WFE or WFET. That masks and all else survive the entry, and the handover record that waits,
are the model's choice (log entry 13): R116 puts them outside the sources. -/
def Obligations.DelayedTrapStepTaken : Prop :=
  ∀ (s : State) (pe : PE) (el : EL), s.acting? = some pe → s.turn.move = .delayedTrap →
    pe.lp.kind = .wfe → pe.lp.trap = some el →
    step s = .next (s.setActing
      { pe with
        arch := { pe.arch with el := el }
        lp := { kind := .run, timeout := none, trap := none }
        idle := false
        idleSignal := false
        handover := some
          { cause := .trap (if pe.lp.timeout = none then .wfe else .wfet)
            target := el
            returnAddr := pe.arch.pc } }).rollOver

/-- 60_exceptions.md R109: at the highest implemented Exception level no trap is possible: an attempt
suspends. -/
def Obligations.NoTrapAtHighestLevel : Prop :=
  ∀ (s : State) (pe : PE), s.WaitReady pe → s.draw.enter = true →
    (∀ e : EL, e.implemented s.config = true → e.rank ≤ pe.arch.el.rank) →
    (pe.arch.er = 0#1 → exec .wfe s = .next (s.setActing
      { pe with lp := { kind := .wfe, timeout := none, trap := none } })) ∧
    exec .wfi s = .next (s.setActing
      { pe with lp := { kind := .wfi, timeout := none, trap := none } }) ∧
    (s.config.featWFxT = true → ∀ r : RegNum,
      (pe.arch.er = 0#1 → exec (.wfet r) s = .next (s.setActing
        { pe with lp := { kind := .wfe, timeout := some (pe.arch.readX r), trap := none } })) ∧
      exec (.wfit r) s = .next (s.setActing
        { pe with lp := { kind := .wfi, timeout := some (pe.arch.readX r), trap := none } }))

/-! ### Delivery, waking, wakeup events -/

/-- 41_send_event.md R81: delivering an event in flight takes it out of INFLIGHT; it completes a PE
suspended in WFE, with a free Event Register; it sets the Event Register of a running PE and of one in
WFI and nothing else; on a powered-down PE it does nothing.
That a powered-down PE drops the event at once is the model's choice (log entry 38). -/
def Obligations.DeliveryByKind : Prop :=
  ∀ (s : State) (pe : PE) (c : Cause), s.acting? = some pe → s.turn.move = .deliver c →
    (s.turn.pe, c) ∈ s.inflight →
    let s' := { s with inflight := s.inflight.erase (s.turn.pe, c) }
    (pe.lp.kind = .wfe → step s = .next (s'.setActing
      { pe with
        arch := { pe.arch with er := s.draw.erAfterWake, pc := nextPc s.draw pe.arch.pc }
        lp := { kind := .run, timeout := none, trap := none }
        idle := false
        idleSignal := false }).rollOver) ∧
    (pe.lp.kind = .run ∨ pe.lp.kind = .wfi → step s = .next (s'.setActing
      { pe with arch := { pe.arch with er := 1#1 } }).rollOver) ∧
    (pe.lp.kind = .off → step s = .next (s'.setActing pe).rollOver)

/-- 40_wait_for_event.md R59, R69, R70, 42_wait_for_interrupt.md R93, R105: the wake step is enabled in
every suspended state, with or without a wakeup event; it completes the instruction, cancels a delayed
trap, and leaves the Event Register and what is pending as they are. -/
def Obligations.WakeStepAlwaysEnabled : Prop :=
  ∀ (s : State) (pe : PE), s.acting? = some pe → s.turn.move = .wake →
    pe.lp.kind = .wfe ∨ pe.lp.kind = .wfi →
    step s = .next (s.setActing
      { pe with
        arch := { pe.arch with pc := nextPc s.draw pe.arch.pc }
        lp := { kind := .run, timeout := none, trap := none }
        idle := false
        idleSignal := false }).rollOver

/-- 10_state.md R16: a suspended or powered-down PE has no instruction step: nothing of the machine
changes but whose turn is next. No more has one that took an exception and waits for the exception model
(60_exceptions.md R116), until a handler starts, which sets pc and masks and ends the wait.
The wait and the handler start are the model's choice (log entries 13 and 20), and that a turn which is
not enabled stutters (log entry 7). -/
def Obligations.SuspendedPEExecutesNothing : Prop :=
  ∀ (s : State) (pe : PE), s.acting? = some pe →
    (s.turn.move = .execute → (pe.lp.kind ≠ .run ∨ pe.handover.isSome = true) →
      step s = .next s.rollOver) ∧
    (∀ (pc : Word) (m : Masks), s.turn.move = .enterHandler pc m →
      (pe.handover.isSome = true → pcAligned pc = true → step s = .next (s.setActing
        { pe with arch := { pe.arch with pc := pc, masks := m }, handover := none }).rollOver) ∧
      (pe.handover = none ∨ pcAligned pc = false → step s = .next s.rollOver))

/-- 40_wait_for_event.md R58, R81, 42_wait_for_interrupt.md R92, 60_exceptions.md R128, 10_state.md
R16: the only steps that take a PE out of the low-power state of WFE, of WFI, and of powerdown. -/
def Obligations.SuspensionLeftOnlyByListedSteps : Prop :=
  ∀ (s t : State) (p : Nat) (pe pe' : PE), step s = .next t → s.pes[p]? = some pe →
    t.pes[p]? = some pe' → pe'.lp.kind ≠ pe.lp.kind →
    (pe.lp.kind = .wfe → s.turn.pe = p ∧ pe'.lp.kind = .run ∧
      (s.turn.move = .wake ∨ (∃ c, s.turn.move = .deliver c ∧ (p, c) ∈ s.inflight) ∨
       (s.turn.move = .delayedTrap ∧ pe.lp.trap.isSome = true) ∨ s.turn.move = .reset)) ∧
    (pe.lp.kind = .wfi → s.turn.pe = p ∧
      ((pe'.lp.kind = .run ∧ (s.turn.move = .wake ∨ s.turn.move = .reset)) ∨
       (pe'.lp.kind = .off ∧ s.turn.move = .powerDown ∧ s.config.wfiCanComplete = false))) ∧
    (pe.lp.kind = .off → s.turn.pe = p ∧ pe'.lp.kind = .run ∧ s.turn.move = .reset)

/-- 40_wait_for_event.md R63: when a physical exception wakes a WFE. Which mask bit corresponds to which
type is 10_state.md R22: the source supports A with SError, the rest is general knowledge (log entry 39). -/
def Obligations.PhysicalWakesWfe : Prop :=
  ∀ (pe : PE) (x : AsyncExc), pe.physWakesWFE x = true ↔
    ∃ ty sp, x = .physical ty sp ∧ x ∉ pe.arch.controls.intDis ∧
      (pe.markOf x = .a ∨
        (pe.markOf x = .b ∧ ((ty = .serror ∧ pe.arch.masks.a = 0#1) ∨
          (ty = .irq ∧ pe.arch.masks.i = 0#1) ∨ (ty = .fiq ∧ pe.arch.masks.f = 0#1) ∨
          (pe.inputs.allIntMask = 0#1 ∧ (ty = .irq ∨ ty = .fiq) ∧ sp = true))))

/-- 40_wait_for_event.md R64: when a virtual exception wakes a WFE. Which mask bit corresponds to which
type is 10_state.md R22: the source supports A with SError, the rest is general knowledge (log entry 39). -/
def Obligations.VirtualWakesWfe : Prop :=
  ∀ (pe : PE) (x : AsyncExc), pe.virtWakesWFE x = true ↔
    ∃ ty sp, x = .virtual ty sp ∧ (pe.arch.el = .el1 ∨ pe.arch.el = .el0) ∧
      x ∉ pe.arch.controls.intDis ∧ pe.markOf x = .b ∧
      ((ty = .serror ∧ pe.arch.masks.a = 0#1) ∨ (ty = .irq ∧ pe.arch.masks.i = 0#1) ∨
        (ty = .fiq ∧ pe.arch.masks.f = 0#1) ∨
        (pe.inputs.allIntMask = 0#1 ∧ (ty = .irq ∨ ty = .fiq) ∧ sp = true))

/-- 40_wait_for_event.md R65: when a delegated SError wakes a WFE. -/
def Obligations.DelegatedWakesWfe : Prop :=
  ∀ (pe : PE) (x : AsyncExc), pe.delegWakesWFE x = true ↔
    x = .delegated ∧ (pe.arch.el = .el2 ∨ pe.arch.el = .el1 ∨ pe.arch.el = .el0) ∧
      x ∉ pe.arch.controls.intDis ∧
      (pe.markOf x = .a ∨ (pe.markOf x = .b ∧ pe.arch.masks.a = 0#1))

/-- 42_wait_for_interrupt.md R99 to R101: when a pending exception wakes a WFI: neither the mask bits,
nor AllIntMask, nor EDSCR.INTdis has a say. -/
def Obligations.ExceptionsWakeWfi : Prop :=
  ∀ (pe : PE) (x : AsyncExc),
    (pe.physWakesWFI x = true ↔
      (∃ ty sp, x = .physical ty sp) ∧ (pe.markOf x = .a ∨ pe.markOf x = .b)) ∧
    (pe.virtWakesWFI x = true ↔
      (∃ ty sp, x = .virtual ty sp) ∧ (pe.arch.el = .el1 ∨ pe.arch.el = .el0) ∧
        pe.markOf x = .b) ∧
    (pe.delegWakesWFI x = true ↔
      x = .delegated ∧ (pe.arch.el = .el2 ∨ pe.arch.el = .el1 ∨ pe.arch.el = .el0) ∧
        (pe.markOf x = .a ∨ pe.markOf x = .b))

/-- 40_wait_for_event.md R66, R68, R69, 42_wait_for_interrupt.md R102, R103, R105: when a wakeup event is
pending. The timeout is an unsigned comparison, and only a timed instruction has one. That a pending wakeup
event obliges a wake is a premise of liveness, and to a WFI with `WFI_CAN_COMPLETE` false nothing does
(R105; log entry 28). -/
def Obligations.WakePendingConditions : Prop :=
  ∀ (c : Config) (pe : PE),
    (pe.timeoutWakes c = true ↔ c.featWFxT = true ∧
      ∃ T, pe.lp.timeout = some T ∧ T.toNat ≤ pe.arch.cntvct.toNat) ∧
    (pe.wfeWakePending c = true ↔
      (∃ x ∈ pe.arch.pend, pe.physWakesWFE x = true ∨ pe.virtWakesWFE x = true ∨
        pe.delegWakesWFE x = true) ∨
      (pe.inputs.haltingAllowed = true ∧ pe.arch.edbgrq = true) ∨ pe.timeoutWakes c = true) ∧
    (pe.wfiWakePending c = true ↔
      (∃ x ∈ pe.arch.pend, pe.physWakesWFI x = true ∨ pe.virtWakesWFI x = true ∨
        pe.delegWakesWFI x = true) ∨
      (pe.inputs.haltingAllowed = true ∧ pe.arch.edbgrq = true) ∨
      pe.inputs.impDefEvent = true ∨ pe.timeoutWakes c = true)

/-- 60_exceptions.md R118, 42_wait_for_interrupt.md R98: every interrupt, debug request or timeout that
is a pending WFE wakeup event is, for a PE in the same state, a pending WFI wakeup event. -/
def Obligations.WfeWakersAreWfiWakers : Prop :=
  ∀ (c : Config) (pe : PE), pe.wfeWakePending c = true → pe.wfiWakePending c = true

/-- 42_wait_for_interrupt.md R104, R105: WFI wakeup events are never disabled by EDSCR.INTdis and never
masked by the mask bits or by AllIntMask: two PEs that agree on what R105 names, and differ in these and
anything else, owe a wake together. -/
def Obligations.WfiWakeIgnoresMasking : Prop :=
  ∀ (c : Config) (pe pe' : PE),
    (∀ x, x ∈ pe'.arch.pend ↔ x ∈ pe.arch.pend) → pe'.arch.el = pe.arch.el →
    (∀ x, pe'.markOf x = pe.markOf x) → pe'.inputs.haltingAllowed = pe.inputs.haltingAllowed →
    pe'.arch.edbgrq = pe.arch.edbgrq → pe'.inputs.impDefEvent = pe.inputs.impDefEvent →
    pe'.lp.timeout = pe.lp.timeout → pe'.arch.cntvct = pe.arch.cntvct →
    pe'.wfiWakePending c = pe.wfiWakePending c

/-- 60_exceptions.md R119, 42_wait_for_interrupt.md R104: an interrupt that is disabled, or marked B
and held back by its mask bit, is not taken: it stays pending and nothing changes.
The move that takes an exception is the model's (log entries 7 and 19). -/
def Obligations.MaskedInterruptNotTaken : Prop :=
  ∀ (s : State) (pe : PE) (x : AsyncExc) (el : EL), s.acting? = some pe →
    s.turn.move = .takeAsync x el →
    x ∈ pe.arch.controls.intDis ∨
      (pe.markOf x = .b ∧ pe.maskBit x = 1#1 ∧ pe.superpriorityApplies x = false) →
    step s = .next s.rollOver

/-- 60_exceptions.md R119 (the model's reading, log entry 19): an exception that is pending, neither
disabled nor held back, may be taken before the next instruction; the interrupted point is the current
pc and the exception is no longer pending. The handover record is the model's too (log entry 13). -/
def Obligations.PendingExceptionTaken : Prop :=
  ∀ (s : State) (pe : PE) (x : AsyncExc) (el : EL), s.Running pe → s.turn.move = .takeAsync x el →
    x ∈ pe.arch.pend → x ∉ pe.arch.controls.intDis →
    (pe.markOf x ≠ .b ∨ pe.maskBit x = 0#1 ∨ pe.superpriorityApplies x = true) →
    el.implemented s.config = true →
    ∃ t pe', step s = .next t ∧ t.pes[s.turn.pe]? = some pe' ∧ x ∉ pe'.arch.pend ∧
      (∀ y, y ≠ x → (y ∈ pe'.arch.pend ↔ y ∈ pe.arch.pend)) ∧
      pe'.arch.el = el ∧ pe'.arch.er = pe.arch.er ∧ pe'.arch.pc = pe.arch.pc ∧
      pe'.handover = some { cause := .async x, target := el, returnAddr := pe.arch.pc }

/-! ### The Event Register over the whole machine -/

/-- 10_state.md R15: the Event Register of a PE goes from 1 to 0 only by a WFE or WFET that this PE
executes; where a reset or a loss of power takes the value away, it is UNKNOWN. -/
def Obligations.EventRegisterClearedOnlyByWait : Prop :=
  ∀ (s t : State) (p : Nat) (pe pe' : PE), s.Inv → step s = .next t → s.pes[p]? = some pe →
    t.pes[p]? = some pe' → pe.arch.er = 1#1 → pe'.arch.er = 0#1 →
    s.turn.pe = p ∧
    ((s.turn.move = .execute ∧
        (s.fetch pe = .next .wfe ∨ ∃ r, s.fetch pe = .next (.wfet r))) ∨
     s.turn.move = .reset ∨
     (s.turn.move = .powerDown ∧ pe.lp.kind = .wfi ∧ s.config.wfiCanComplete = false))

/-- 10_state.md R14: the Event Register of a PE goes from 0 to 1 only by an SEVL it executes, an event
in flight that is delivered to it, or an exception return; or it is UNKNOWN after a reset or a loss of
power. In particular no interrupt, debug request, timeout or trap sets it. -/
def Obligations.EventRegisterSetOnlyByCauses : Prop :=
  ∀ (s t : State) (p : Nat) (pe pe' : PE), step s = .next t → s.pes[p]? = some pe →
    t.pes[p]? = some pe' → pe.arch.er = 0#1 → pe'.arch.er = 1#1 →
    s.turn.pe = p ∧
    ((s.turn.move = .execute ∧ s.fetch pe = .next .sevl) ∨
     (∃ c, s.turn.move = .deliver c ∧ (p, c) ∈ s.inflight) ∨
     (∃ r, s.turn.move = .exceptionReturn r ∧ pe.lp.kind = .run) ∨
     s.turn.move = .reset ∨
     (s.turn.move = .powerDown ∧ pe.lp.kind = .wfi ∧ s.config.wfiCanComplete = false))

/-- 41_send_event.md R85, R86: the clearing of the global monitor, the event stream and an
IMPLEMENTATION DEFINED mechanism each put one event for the PE in flight and change nothing else. -/
def Obligations.EventSourcesPutInFlight : Prop :=
  ∀ (s : State) (pe : PE), s.acting? = some pe →
    (s.turn.move = .env .monitorCleared → step s = .next
      ({ s with inflight := s.inflight ++ [(s.turn.pe, Cause.monitor)] }).rollOver) ∧
    (s.turn.move = .env .streamEvent → step s = .next
      ({ s with inflight := s.inflight ++ [(s.turn.pe, Cause.stream)] }).rollOver) ∧
    (s.turn.move = .env .impDefEvent → step s = .next
      ({ s with inflight := s.inflight ++ [(s.turn.pe, Cause.impdef)] }).rollOver)

/-- 41_send_event.md R84: an exception return sets the Event Register of the PE within the same step,
whatever it restores.
What a return restores is the exception model's (the model's choice, log entry 20). -/
def Obligations.ExceptionReturnSetsEventRegister : Prop :=
  ∀ (s : State) (pe : PE) (r : Resume), s.acting? = some pe → s.turn.move = .exceptionReturn r →
    pe.lp.kind = .run → pcAligned r.pc = true → r.el.implemented s.config = true →
    step s = .next (s.setActing
      { pe with
        arch := { pe.arch with er := 1#1, pc := r.pc, el := r.el, masks := r.masks, x := r.x }
        handover := none }).rollOver

/-- 60_exceptions.md R117(a): if the handler of a trapped WFE or WFET, trapped at once or after a delay,
returns to that instruction, it clears the Event Register and completes without suspending or trapping
again, whatever is drawn. After a delayed trap no synchronous PMU Profiling exception may have come in
between (R125).
What a return restores is the exception model's (the model's choice, log entry 20), and the handover record
is the model's (log entry 13). -/
def Obligations.TrappedWaitReturnedToCompletes : Prop :=
  ∀ (s t u : State) (pe pe' : PE) (h : Handover) (r : Resume) (d d' : Draw) (i : Instr) (w : WFx),
    (i = .wfe ∧ w = .wfe) ∨ ((∃ x, i = .wfet x) ∧ w = .wfet) →
    s.Inv → s.acting? = some pe →
    exec i s = .next t ∨
      (s.turn.move = .delayedTrap ∧ step s = .next t ∧ pe.handover = none ∧
        (s.config.featSEBEP = true → pe.arch.syncProfiling = false)) →
    t.pes[s.turn.pe]? = some pe' → pe'.handover = some h → h.cause = .trap w →
    r.pc = h.returnAddr → r.el.implemented s.config = true →
    step (t.withChoice { pe := s.turn.pe, move := .exceptionReturn r } d) = .next u →
    ∃ v pe'', exec i (u.withChoice { pe := s.turn.pe, move := .execute } d') = .next v ∧
      v.pes[s.turn.pe]? = some pe'' ∧ pe''.arch.er = 0#1 ∧ pe''.lp.kind = .run ∧
      pe''.handover = none ∧ pe''.arch.pc = nextPc d' pe.arch.pc ∧ pe''.arch.el = r.el

/-- 60_exceptions.md R126: serving a PMU Capture event changes neither the low-power record, nor the
Event Register, nor pc: the PE returns to standby.
The move is the model's and follows Arm's recommendation (log entry 18). -/
def Obligations.CaptureServedInPlace : Prop :=
  ∀ (s : State) (pe : PE), s.acting? = some pe → s.turn.move = .serviceCapture →
    step s = .next (s.setActing { pe with arch := { pe.arch with capture := false } }).rollOver

/-! ### Idle state, powerdown, reset -/

/-- 60_exceptions.md R130, R132: becoming idle and signalling it, where they are enabled. -/
def Obligations.IdleSteps : Prop :=
  ∀ (s : State) (pe : PE), s.acting? = some pe →
    (s.turn.move = .becomeIdle → pe.lp.kind = .wfi → pe.inputs.quiet = true → pe.idle = false →
      step s = .next (s.setActing { pe with idle := true }).rollOver) ∧
    (s.turn.move = .signalIdle → s.config.wfiPowerdown = true → pe.idle = true →
      pe.idleSignal = false →
      (pe.arch.controls.dlk = 0#1 ∨ pe.inputs.debugInterfaceIdle = true) →
      step s = .next (s.setActing { pe with idleSignal := true }).rollOver)

/-- 60_exceptions.md R130, R132: a PE starts to signal the idle state only where a WFI powerdown
mechanism is implemented and it is idle, and with OSDLR_EL1.DLK at 1 only where it can also guarantee
that the debug interface is idle. -/
def Obligations.IdleSignalGuard : Prop :=
  ∀ (s t : State) (p : Nat) (pe pe' : PE), step s = .next t → s.pes[p]? = some pe →
    t.pes[p]? = some pe' → pe.idleSignal = false → pe'.idleSignal = true →
    s.turn = { pe := p, move := .signalIdle } ∧ s.config.wfiPowerdown = true ∧ pe.idle = true ∧
    (pe.arch.controls.dlk = 1#1 → pe.inputs.debugInterfaceIdle = true)

/-- 60_exceptions.md R128: power is removed only from a PE suspended in WFI or WFIT on a system that
cannot complete them; its architectural state is then UNKNOWN, memory is not lost, and every other PE
stays as it is. Anywhere else nothing happens.
That a move which is not enabled stutters is the model's choice (log entry 7), and that the UNKNOWN level
is one that exists (log entry 30) and the inputs stay (log entry 16). -/
def Obligations.PowerDownOnlyFromWfi : Prop :=
  ∀ (s : State) (pe : PE), s.acting? = some pe → s.turn.move = .powerDown →
    (pe.lp.kind = .wfi → s.config.wfiCanComplete = false → step s = .next (s.setActing
      { pe with
        arch := { s.draw.unknown with el := s.draw.unknown.el.legal s.config }
        lp := { kind := .off, timeout := none, trap := none }
        idle := false
        idleSignal := false
        handover := none }).rollOver) ∧
    (pe.lp.kind ≠ .wfi ∨ s.config.wfiCanComplete = true → ∃ t, step s = .next t ∧
      t.pes = s.pes ∧ t.inflight = s.inflight ∧ t.mem = s.mem ∧ t.config = s.config)

/-- 70_reset_and_hazards.md R137, 10_state.md R28: what a reset of a PE leaves: running, nothing
pending in its low-power record, idle flags false, pc at RESET_PC, every other architectural component
drawn; every other PE unchanged, and no event for another PE dropped.
That the drawn level is one that exists (log entry 30), that the inputs stay (log entry 16) and that no
exception waits for the exception model (log entry 13) are the model's choice. -/
def Obligations.ResetStepLeaves : Prop :=
  ∀ (s : State) (pe : PE), s.acting? = some pe → s.turn.move = .reset → ∃ t pe',
    step s = .next t ∧ t.pes[s.turn.pe]? = some pe' ∧
    pe' =
      { arch :=
          { s.draw.unknown with
            pc := s.config.resetPc
            el := s.draw.unknown.el.legal s.config }
        inputs := pe.inputs
        lp := { kind := .run, timeout := none, trap := none }
        idle := false
        idleSignal := false
        handover := none } ∧
    (∀ q, q ≠ s.turn.pe → t.pes[q]? = s.pes[q]?) ∧
    (∀ q c, q ≠ s.turn.pe → t.inflight.count (q, c) = s.inflight.count (q, c)) ∧
    (∀ c, t.inflight.count (s.turn.pe, c) ≤ s.inflight.count (s.turn.pe, c)) ∧ t.mem = s.mem

/-- 10_state.md R28: "The reset value of the Event Register is UNKNOWN": for each bit some draw gives
it, whatever the register held before. -/
def Obligations.ResetEventRegisterUnknown : Prop :=
  ∀ (s : State) (pe : PE) (p : Nat) (b : BitVec 1), s.pes[p]? = some pe →
    ∃ d t pe', step (s.withChoice { pe := p, move := .reset } d) = .next t ∧
      t.pes[p]? = some pe' ∧ pe'.arch.er = b

/-! ### Invariants, frames and isolation -/

/-- 10_state.md R29 and the shape of State: every step keeps the invariant, from every state that
meets it, whatever the turn and the draws are. -/
def Obligations.StepKeepsInvariant : Prop :=
  ∀ s t : State, s.Inv → step s = .next t → t.Inv

/-- 10_state.md R28, R29: the machine right after reset meets the invariant, and each PE is running
with nothing pending and its idle flags false.
What the spec leaves open there is the model's choice (log entries 1 to 4). -/
def Obligations.ResetMeetsInvariant : Prop :=
  State.reset.Inv ∧ ∀ pe ∈ State.reset.pes,
    pe.lp = { kind := .run, timeout := none, trap := none } ∧ pe.idle = false ∧ pe.idleSignal = false

/-- 10_state.md R11, 40_wait_for_event.md R75, 42_wait_for_interrupt.md R107, 70_reset_and_hazards.md
R137: one step changes one PE: every other PE, with its Event Register and its low-power record, stays
as it is, whatever the move. -/
def Obligations.StepLeavesOtherPEsAlone : Prop :=
  ∀ (s t : State) (q : Nat), step s = .next t → q ≠ s.turn.pe → t.pes[q]? = s.pes[q]?

/-- 20_memory.md R30, R31, 00_scope.md R6: no step changes a byte of memory, a constant of the
implementation, or the number of PEs. That no step at all writes memory is the model's choice (log entry
9, with 92_eei_decisions.md D20), and that `WFI_CAN_COMPLETE` never changes (log entry 24: R6 lets it be
an input). -/
def Obligations.StepKeepsMemoryAndConstants : Prop :=
  ∀ s t : State, step s = .next t → (∀ a, t.mem.read a = s.mem.read a) ∧ t.mem = s.mem ∧
    t.config = s.config ∧ t.pes.length = s.pes.length

/-- 00_scope.md R6, 10_state.md R20, R22 to R25: which steps change the borrowed state of a PE. General
registers: a reset, a loss of power or what an exception return restores. Masks: those, the environment,
or the start of a handler. Control fields and counter: the environment, a reset or a loss of power. The
level: the environment, an exception taken or returned from, a reset or a loss of power. Pending
exceptions: the environment, a reset, a loss of power, or one of them being taken. The debug request, the
Capture flag and the two Profiling flags: the environment, a reset or a loss of power, the Capture event
being served, the synchronous Profiling exception being taken. The inputs of R6: the environment alone.
That a reset and a loss of power leave the inputs (log entry 16), that the synchronous Profiling flag is
cleared where that exception is taken (log entry 17) and that a Capture event is served by a move of its
own (log entry 18) are the model's choice.
That the environment writes no general register is DEDUCED (log entry 31); what a return and a handler
start restore and set (log entry 20), that an exception taken is no longer pending (log entry 19), and the
handover record (log entry 13) are the model's choice. -/
def Obligations.BorrowedStateWrittenOnlyBy : Prop :=
  ∀ (s t : State) (p : Nat) (pe pe' : PE), step s = .next t → s.pes[p]? = some pe →
    t.pes[p]? = some pe' →
    (pe'.arch.x ≠ pe.arch.x → s.turn.pe = p ∧
      (s.turn.move = .reset ∨ s.turn.move = .powerDown ∨ ∃ r, s.turn.move = .exceptionReturn r)) ∧
    (pe'.arch.masks ≠ pe.arch.masks → s.turn.pe = p ∧
      (s.turn.move = .reset ∨ s.turn.move = .powerDown ∨ (∃ r, s.turn.move = .exceptionReturn r) ∨
       (∃ m, s.turn.move = .env (.setMasks m)) ∨
       ∃ pc m, s.turn.move = .enterHandler pc m ∧ pe.handover.isSome = true)) ∧
    (pe'.arch.controls ≠ pe.arch.controls → s.turn.pe = p ∧
      (s.turn.move = .reset ∨ s.turn.move = .powerDown ∨
       ∃ k, s.turn.move = .env (.setControls k))) ∧
    (pe'.arch.cntvct ≠ pe.arch.cntvct → s.turn.pe = p ∧
      (s.turn.move = .reset ∨ s.turn.move = .powerDown ∨ ∃ v, s.turn.move = .env (.counter v))) ∧
    (pe'.arch.el ≠ pe.arch.el → s.turn.pe = p ∧
      (s.turn.move = .reset ∨ s.turn.move = .powerDown ∨ (∃ r, s.turn.move = .exceptionReturn r) ∨
       (∃ e, s.turn.move = .env (.setLevel e) ∧ e.implemented s.config = true) ∨
       ∃ h, pe'.handover = some h ∧ h.target = pe'.arch.el)) ∧
    (pe'.arch.pend ≠ pe.arch.pend → s.turn.pe = p ∧
      (s.turn.move = .reset ∨ s.turn.move = .powerDown ∨ (∃ x, s.turn.move = .env (.raise x)) ∨
       (∃ x, s.turn.move = .env (.withdraw x)) ∨
       ∃ x e, s.turn.move = .takeAsync x e ∧ x ∈ pe.arch.pend)) ∧
    (pe'.arch.edbgrq ≠ pe.arch.edbgrq → s.turn.pe = p ∧
      (s.turn.move = .reset ∨ s.turn.move = .powerDown ∨
       ∃ b, s.turn.move = .env (.debugRequest b))) ∧
    (pe'.arch.capture ≠ pe.arch.capture → s.turn.pe = p ∧
      (s.turn.move = .reset ∨ s.turn.move = .powerDown ∨ s.turn.move = .env .captureEvent ∨
       s.turn.move = .serviceCapture)) ∧
    (pe'.arch.profiling ≠ pe.arch.profiling → s.turn.pe = p ∧
      (s.turn.move = .reset ∨ s.turn.move = .powerDown ∨
       ∃ b, s.turn.move = .env (.setProfiling b))) ∧
    (pe'.arch.syncProfiling ≠ pe.arch.syncProfiling → s.turn.pe = p ∧
      (s.turn.move = .reset ∨ s.turn.move = .powerDown ∨
       (∃ b, s.turn.move = .env (.setSyncProfiling b)) ∨
       (s.turn.move = .execute ∧ s.config.featSEBEP = true ∧
         ∃ h, pe'.handover = some h ∧ h.cause = .syncProfiling))) ∧
    (pe'.inputs ≠ pe.inputs → s.turn.pe = p ∧ ∃ i, s.turn.move = .env (.setInputs i))

/-! ### Progress, under the premises the spec names -/

/-- 40_wait_for_event.md R72(a), 70_reset_and_hazards.md R149(b): under `EVENT_DELIVERY_FAIR`, a PE
suspended in WFE or WFET for which an event is in flight does not stay suspended for ever. -/
def Obligations.EventInFlightEndsWait : Prop :=
  ∀ (r : Nat → State) (turn : Nat → Turn) (draw : Nat → Draw) (n p : Nat) (pe : PE) (c : Cause),
    IsRun r turn draw → EventDeliveryFair r turn → (r n).pes[p]? = some pe → pe.lp.kind = .wfe →
    (p, c) ∈ (r n).inflight → ∃ m pe', n ≤ m ∧ (r m).pes[p]? = some pe' ∧ pe'.lp.kind ≠ .wfe

/-- 40_wait_for_event.md R68, R72(b), R73, 42_wait_for_interrupt.md R103, R105, 70_reset_and_hazards.md
R149(a), (c): under `COUNTER_PROGRESS`, a counter that never decreases, and a wake step that is taken
where it stays owed (without `WAKE_ON_ALREADY_PENDING`, R149(d)), a PE suspended in WFET does not stay
suspended for ever, nor does one in WFIT on a system that can complete it; on any other system no wake is
guaranteed to a WFIT. That `WFI_CAN_COMPLETE`, asked at moment `n`, holds along the run is the model's
choice (log entry 24: R6 lets it be an input). -/
def Obligations.TimeoutEndsWait : Prop :=
  ∀ (r : Nat → State) (turn : Nat → Turn) (draw : Nat → Draw) (n p : Nat) (pe : PE) (T : Word),
    IsRun r turn draw → WakeFairOnArrival r turn p → CounterProgress r p → CounterNeverDecreases r p →
    (r n).config.featWFxT = true → (r n).pes[p]? = some pe →
    (pe.lp.kind = .wfe ∨ (pe.lp.kind = .wfi ∧ (r n).config.wfiCanComplete = true)) →
    pe.lp.timeout = some T →
    ∃ m pe', n ≤ m ∧ (r m).pes[p]? = some pe' ∧ pe'.lp.kind ≠ pe.lp.kind
end

