-- ==== Sys2Proof/Laws/State.lean ====
section
/-! SUPPORT. One lemma for each field under each update of the state, true by rfl, so that no proof
unfolds a record update. -/

namespace Sys2Proof.Machine

/-! ### The Event Register -/

@[simp] theorem PE.setER_er (v : BitVec 1) (pe : PE) : (pe.setER v).arch.er = v := rfl
@[simp] theorem PE.setER_x (v : BitVec 1) (pe : PE) : (pe.setER v).arch.x = pe.arch.x := rfl
@[simp] theorem PE.setER_pc (v : BitVec 1) (pe : PE) : (pe.setER v).arch.pc = pe.arch.pc := rfl
@[simp] theorem PE.setER_masks (v : BitVec 1) (pe : PE) : (pe.setER v).arch.masks = pe.arch.masks := rfl
@[simp] theorem PE.setER_el (v : BitVec 1) (pe : PE) : (pe.setER v).arch.el = pe.arch.el := rfl
@[simp] theorem PE.setER_controls (v : BitVec 1) (pe : PE) :
    (pe.setER v).arch.controls = pe.arch.controls := rfl
@[simp] theorem PE.setER_cntvct (v : BitVec 1) (pe : PE) : (pe.setER v).arch.cntvct = pe.arch.cntvct := rfl
@[simp] theorem PE.setER_pend (v : BitVec 1) (pe : PE) : (pe.setER v).arch.pend = pe.arch.pend := rfl
@[simp] theorem PE.setER_edbgrq (v : BitVec 1) (pe : PE) : (pe.setER v).arch.edbgrq = pe.arch.edbgrq := rfl
@[simp] theorem PE.setER_capture (v : BitVec 1) (pe : PE) : (pe.setER v).arch.capture = pe.arch.capture := rfl
@[simp] theorem PE.setER_profiling (v : BitVec 1) (pe : PE) :
    (pe.setER v).arch.profiling = pe.arch.profiling := rfl
@[simp] theorem PE.setER_syncProfiling (v : BitVec 1) (pe : PE) :
    (pe.setER v).arch.syncProfiling = pe.arch.syncProfiling := rfl
@[simp] theorem PE.setER_inputs (v : BitVec 1) (pe : PE) : (pe.setER v).inputs = pe.inputs := rfl
@[simp] theorem PE.setER_lp (v : BitVec 1) (pe : PE) : (pe.setER v).lp = pe.lp := rfl
@[simp] theorem PE.setER_idle (v : BitVec 1) (pe : PE) : (pe.setER v).idle = pe.idle := rfl
@[simp] theorem PE.setER_idleSignal (v : BitVec 1) (pe : PE) : (pe.setER v).idleSignal = pe.idleSignal := rfl
@[simp] theorem PE.setER_handover (v : BitVec 1) (pe : PE) : (pe.setER v).handover = pe.handover := rfl

/-! ### Going on -/

@[simp] theorem PE.advance_er (d : Draw) (pe : PE) : (pe.advance d).arch.er = pe.arch.er := rfl
@[simp] theorem PE.advance_x (d : Draw) (pe : PE) : (pe.advance d).arch.x = pe.arch.x := rfl
@[simp] theorem PE.advance_pc (d : Draw) (pe : PE) : (pe.advance d).arch.pc = nextPc d pe.arch.pc := rfl
@[simp] theorem PE.advance_masks (d : Draw) (pe : PE) : (pe.advance d).arch.masks = pe.arch.masks := rfl
@[simp] theorem PE.advance_el (d : Draw) (pe : PE) : (pe.advance d).arch.el = pe.arch.el := rfl
@[simp] theorem PE.advance_controls (d : Draw) (pe : PE) :
    (pe.advance d).arch.controls = pe.arch.controls := rfl
@[simp] theorem PE.advance_cntvct (d : Draw) (pe : PE) : (pe.advance d).arch.cntvct = pe.arch.cntvct := rfl
@[simp] theorem PE.advance_pend (d : Draw) (pe : PE) : (pe.advance d).arch.pend = pe.arch.pend := rfl
@[simp] theorem PE.advance_edbgrq (d : Draw) (pe : PE) : (pe.advance d).arch.edbgrq = pe.arch.edbgrq := rfl
@[simp] theorem PE.advance_capture (d : Draw) (pe : PE) : (pe.advance d).arch.capture = pe.arch.capture := rfl
@[simp] theorem PE.advance_profiling (d : Draw) (pe : PE) :
    (pe.advance d).arch.profiling = pe.arch.profiling := rfl
@[simp] theorem PE.advance_syncProfiling (d : Draw) (pe : PE) :
    (pe.advance d).arch.syncProfiling = pe.arch.syncProfiling := rfl
@[simp] theorem PE.advance_inputs (d : Draw) (pe : PE) : (pe.advance d).inputs = pe.inputs := rfl
@[simp] theorem PE.advance_lp (d : Draw) (pe : PE) : (pe.advance d).lp = pe.lp := rfl
@[simp] theorem PE.advance_idle (d : Draw) (pe : PE) : (pe.advance d).idle = pe.idle := rfl
@[simp] theorem PE.advance_idleSignal (d : Draw) (pe : PE) : (pe.advance d).idleSignal = pe.idleSignal := rfl
@[simp] theorem PE.advance_handover (d : Draw) (pe : PE) : (pe.advance d).handover = pe.handover := rfl

@[simp] theorem PE.complete_er (d : Draw) (pe : PE) : (pe.complete d).arch.er = pe.arch.er := rfl
@[simp] theorem PE.complete_x (d : Draw) (pe : PE) : (pe.complete d).arch.x = pe.arch.x := rfl
@[simp] theorem PE.complete_pc (d : Draw) (pe : PE) : (pe.complete d).arch.pc = nextPc d pe.arch.pc := rfl
@[simp] theorem PE.complete_masks (d : Draw) (pe : PE) : (pe.complete d).arch.masks = pe.arch.masks := rfl
@[simp] theorem PE.complete_el (d : Draw) (pe : PE) : (pe.complete d).arch.el = pe.arch.el := rfl
@[simp] theorem PE.complete_controls (d : Draw) (pe : PE) :
    (pe.complete d).arch.controls = pe.arch.controls := rfl
@[simp] theorem PE.complete_cntvct (d : Draw) (pe : PE) : (pe.complete d).arch.cntvct = pe.arch.cntvct := rfl
@[simp] theorem PE.complete_pend (d : Draw) (pe : PE) : (pe.complete d).arch.pend = pe.arch.pend := rfl
@[simp] theorem PE.complete_edbgrq (d : Draw) (pe : PE) : (pe.complete d).arch.edbgrq = pe.arch.edbgrq := rfl
@[simp] theorem PE.complete_capture (d : Draw) (pe : PE) :
    (pe.complete d).arch.capture = pe.arch.capture := rfl
@[simp] theorem PE.complete_profiling (d : Draw) (pe : PE) :
    (pe.complete d).arch.profiling = pe.arch.profiling := rfl
@[simp] theorem PE.complete_syncProfiling (d : Draw) (pe : PE) :
    (pe.complete d).arch.syncProfiling = pe.arch.syncProfiling := rfl
@[simp] theorem PE.complete_inputs (d : Draw) (pe : PE) : (pe.complete d).inputs = pe.inputs := rfl
@[simp] theorem PE.complete_lp (d : Draw) (pe : PE) : (pe.complete d).lp = LowPower.running := rfl
@[simp] theorem PE.complete_idle (d : Draw) (pe : PE) : (pe.complete d).idle = false := rfl
@[simp] theorem PE.complete_idleSignal (d : Draw) (pe : PE) : (pe.complete d).idleSignal = false := rfl
@[simp] theorem PE.complete_handover (d : Draw) (pe : PE) : (pe.complete d).handover = pe.handover := rfl

/-! ### Suspending -/

@[simp] theorem PE.suspend_er (k : LpKind) (t : Option Word) (e : Option EL) (pe : PE) :
    (pe.suspend k t e).arch.er = pe.arch.er := rfl
@[simp] theorem PE.suspend_x (k : LpKind) (t : Option Word) (e : Option EL) (pe : PE) :
    (pe.suspend k t e).arch.x = pe.arch.x := rfl
@[simp] theorem PE.suspend_pc (k : LpKind) (t : Option Word) (e : Option EL) (pe : PE) :
    (pe.suspend k t e).arch.pc = pe.arch.pc := rfl
@[simp] theorem PE.suspend_masks (k : LpKind) (t : Option Word) (e : Option EL) (pe : PE) :
    (pe.suspend k t e).arch.masks = pe.arch.masks := rfl
@[simp] theorem PE.suspend_el (k : LpKind) (t : Option Word) (e : Option EL) (pe : PE) :
    (pe.suspend k t e).arch.el = pe.arch.el := rfl
@[simp] theorem PE.suspend_controls (k : LpKind) (t : Option Word) (e : Option EL) (pe : PE) :
    (pe.suspend k t e).arch.controls = pe.arch.controls := rfl
@[simp] theorem PE.suspend_cntvct (k : LpKind) (t : Option Word) (e : Option EL) (pe : PE) :
    (pe.suspend k t e).arch.cntvct = pe.arch.cntvct := rfl
@[simp] theorem PE.suspend_pend (k : LpKind) (t : Option Word) (e : Option EL) (pe : PE) :
    (pe.suspend k t e).arch.pend = pe.arch.pend := rfl
@[simp] theorem PE.suspend_edbgrq (k : LpKind) (t : Option Word) (e : Option EL) (pe : PE) :
    (pe.suspend k t e).arch.edbgrq = pe.arch.edbgrq := rfl
@[simp] theorem PE.suspend_capture (k : LpKind) (t : Option Word) (e : Option EL) (pe : PE) :
    (pe.suspend k t e).arch.capture = pe.arch.capture := rfl
@[simp] theorem PE.suspend_profiling (k : LpKind) (t : Option Word) (e : Option EL) (pe : PE) :
    (pe.suspend k t e).arch.profiling = pe.arch.profiling := rfl
@[simp] theorem PE.suspend_syncProfiling (k : LpKind) (t : Option Word) (e : Option EL) (pe : PE) :
    (pe.suspend k t e).arch.syncProfiling = pe.arch.syncProfiling := rfl
@[simp] theorem PE.suspend_inputs (k : LpKind) (t : Option Word) (e : Option EL) (pe : PE) :
    (pe.suspend k t e).inputs = pe.inputs := rfl
@[simp] theorem PE.suspend_lp (k : LpKind) (t : Option Word) (e : Option EL) (pe : PE) :
    (pe.suspend k t e).lp = { kind := k, timeout := t, trap := e } := rfl
@[simp] theorem PE.suspend_idle (k : LpKind) (t : Option Word) (e : Option EL) (pe : PE) :
    (pe.suspend k t e).idle = pe.idle := rfl
@[simp] theorem PE.suspend_idleSignal (k : LpKind) (t : Option Word) (e : Option EL) (pe : PE) :
    (pe.suspend k t e).idleSignal = pe.idleSignal := rfl
@[simp] theorem PE.suspend_handover (k : LpKind) (t : Option Word) (e : Option EL) (pe : PE) :
    (pe.suspend k t e).handover = pe.handover := rfl

/-! ### Exceptions -/

@[simp] theorem PE.takeException_er (c : ExcCause) (e : EL) (pe : PE) :
    (pe.takeException c e).arch.er = pe.arch.er := rfl
@[simp] theorem PE.takeException_x (c : ExcCause) (e : EL) (pe : PE) :
    (pe.takeException c e).arch.x = pe.arch.x := rfl
@[simp] theorem PE.takeException_pc (c : ExcCause) (e : EL) (pe : PE) :
    (pe.takeException c e).arch.pc = pe.arch.pc := rfl
@[simp] theorem PE.takeException_masks (c : ExcCause) (e : EL) (pe : PE) :
    (pe.takeException c e).arch.masks = pe.arch.masks := rfl
@[simp] theorem PE.takeException_el (c : ExcCause) (e : EL) (pe : PE) :
    (pe.takeException c e).arch.el = e := rfl
@[simp] theorem PE.takeException_controls (c : ExcCause) (e : EL) (pe : PE) :
    (pe.takeException c e).arch.controls = pe.arch.controls := rfl
@[simp] theorem PE.takeException_cntvct (c : ExcCause) (e : EL) (pe : PE) :
    (pe.takeException c e).arch.cntvct = pe.arch.cntvct := rfl
@[simp] theorem PE.takeException_pend (c : ExcCause) (e : EL) (pe : PE) :
    (pe.takeException c e).arch.pend = pe.arch.pend := rfl
@[simp] theorem PE.takeException_edbgrq (c : ExcCause) (e : EL) (pe : PE) :
    (pe.takeException c e).arch.edbgrq = pe.arch.edbgrq := rfl
@[simp] theorem PE.takeException_capture (c : ExcCause) (e : EL) (pe : PE) :
    (pe.takeException c e).arch.capture = pe.arch.capture := rfl
@[simp] theorem PE.takeException_profiling (c : ExcCause) (e : EL) (pe : PE) :
    (pe.takeException c e).arch.profiling = pe.arch.profiling := rfl
@[simp] theorem PE.takeException_syncProfiling (c : ExcCause) (e : EL) (pe : PE) :
    (pe.takeException c e).arch.syncProfiling = pe.arch.syncProfiling := rfl
@[simp] theorem PE.takeException_inputs (c : ExcCause) (e : EL) (pe : PE) :
    (pe.takeException c e).inputs = pe.inputs := rfl
@[simp] theorem PE.takeException_lp (c : ExcCause) (e : EL) (pe : PE) :
    (pe.takeException c e).lp = LowPower.running := rfl
@[simp] theorem PE.takeException_idle (c : ExcCause) (e : EL) (pe : PE) :
    (pe.takeException c e).idle = false := rfl
@[simp] theorem PE.takeException_idleSignal (c : ExcCause) (e : EL) (pe : PE) :
    (pe.takeException c e).idleSignal = false := rfl
@[simp] theorem PE.takeException_handover (c : ExcCause) (e : EL) (pe : PE) :
    (pe.takeException c e).handover = some { cause := c, target := e, returnAddr := pe.arch.pc } := rfl

@[simp] theorem PE.exceptionReturn_er (r : Resume) (pe : PE) : (pe.exceptionReturn r).arch.er = 1#1 := rfl
@[simp] theorem PE.exceptionReturn_x (r : Resume) (pe : PE) : (pe.exceptionReturn r).arch.x = r.x := rfl
@[simp] theorem PE.exceptionReturn_pc (r : Resume) (pe : PE) : (pe.exceptionReturn r).arch.pc = r.pc := rfl
@[simp] theorem PE.exceptionReturn_masks (r : Resume) (pe : PE) :
    (pe.exceptionReturn r).arch.masks = r.masks := rfl
@[simp] theorem PE.exceptionReturn_el (r : Resume) (pe : PE) : (pe.exceptionReturn r).arch.el = r.el := rfl
@[simp] theorem PE.exceptionReturn_controls (r : Resume) (pe : PE) :
    (pe.exceptionReturn r).arch.controls = pe.arch.controls := rfl
@[simp] theorem PE.exceptionReturn_cntvct (r : Resume) (pe : PE) :
    (pe.exceptionReturn r).arch.cntvct = pe.arch.cntvct := rfl
@[simp] theorem PE.exceptionReturn_pend (r : Resume) (pe : PE) :
    (pe.exceptionReturn r).arch.pend = pe.arch.pend := rfl
@[simp] theorem PE.exceptionReturn_edbgrq (r : Resume) (pe : PE) :
    (pe.exceptionReturn r).arch.edbgrq = pe.arch.edbgrq := rfl
@[simp] theorem PE.exceptionReturn_capture (r : Resume) (pe : PE) :
    (pe.exceptionReturn r).arch.capture = pe.arch.capture := rfl
@[simp] theorem PE.exceptionReturn_profiling (r : Resume) (pe : PE) :
    (pe.exceptionReturn r).arch.profiling = pe.arch.profiling := rfl
@[simp] theorem PE.exceptionReturn_syncProfiling (r : Resume) (pe : PE) :
    (pe.exceptionReturn r).arch.syncProfiling = pe.arch.syncProfiling := rfl
@[simp] theorem PE.exceptionReturn_inputs (r : Resume) (pe : PE) :
    (pe.exceptionReturn r).inputs = pe.inputs := rfl
@[simp] theorem PE.exceptionReturn_lp (r : Resume) (pe : PE) : (pe.exceptionReturn r).lp = pe.lp := rfl
@[simp] theorem PE.exceptionReturn_idle (r : Resume) (pe : PE) : (pe.exceptionReturn r).idle = pe.idle := rfl
@[simp] theorem PE.exceptionReturn_idleSignal (r : Resume) (pe : PE) :
    (pe.exceptionReturn r).idleSignal = pe.idleSignal := rfl
@[simp] theorem PE.exceptionReturn_handover (r : Resume) (pe : PE) :
    (pe.exceptionReturn r).handover = none := rfl

@[simp] theorem PE.enterHandler_er (pc : Word) (m : Masks) (pe : PE) :
    (pe.enterHandler pc m).arch.er = pe.arch.er := rfl
@[simp] theorem PE.enterHandler_x (pc : Word) (m : Masks) (pe : PE) :
    (pe.enterHandler pc m).arch.x = pe.arch.x := rfl
@[simp] theorem PE.enterHandler_pc (pc : Word) (m : Masks) (pe : PE) :
    (pe.enterHandler pc m).arch.pc = pc := rfl
@[simp] theorem PE.enterHandler_masks (pc : Word) (m : Masks) (pe : PE) :
    (pe.enterHandler pc m).arch.masks = m := rfl
@[simp] theorem PE.enterHandler_el (pc : Word) (m : Masks) (pe : PE) :
    (pe.enterHandler pc m).arch.el = pe.arch.el := rfl
@[simp] theorem PE.enterHandler_controls (pc : Word) (m : Masks) (pe : PE) :
    (pe.enterHandler pc m).arch.controls = pe.arch.controls := rfl
@[simp] theorem PE.enterHandler_cntvct (pc : Word) (m : Masks) (pe : PE) :
    (pe.enterHandler pc m).arch.cntvct = pe.arch.cntvct := rfl
@[simp] theorem PE.enterHandler_pend (pc : Word) (m : Masks) (pe : PE) :
    (pe.enterHandler pc m).arch.pend = pe.arch.pend := rfl
@[simp] theorem PE.enterHandler_edbgrq (pc : Word) (m : Masks) (pe : PE) :
    (pe.enterHandler pc m).arch.edbgrq = pe.arch.edbgrq := rfl
@[simp] theorem PE.enterHandler_capture (pc : Word) (m : Masks) (pe : PE) :
    (pe.enterHandler pc m).arch.capture = pe.arch.capture := rfl
@[simp] theorem PE.enterHandler_profiling (pc : Word) (m : Masks) (pe : PE) :
    (pe.enterHandler pc m).arch.profiling = pe.arch.profiling := rfl
@[simp] theorem PE.enterHandler_syncProfiling (pc : Word) (m : Masks) (pe : PE) :
    (pe.enterHandler pc m).arch.syncProfiling = pe.arch.syncProfiling := rfl
@[simp] theorem PE.enterHandler_inputs (pc : Word) (m : Masks) (pe : PE) :
    (pe.enterHandler pc m).inputs = pe.inputs := rfl
@[simp] theorem PE.enterHandler_lp (pc : Word) (m : Masks) (pe : PE) :
    (pe.enterHandler pc m).lp = pe.lp := rfl
@[simp] theorem PE.enterHandler_idle (pc : Word) (m : Masks) (pe : PE) :
    (pe.enterHandler pc m).idle = pe.idle := rfl
@[simp] theorem PE.enterHandler_idleSignal (pc : Word) (m : Masks) (pe : PE) :
    (pe.enterHandler pc m).idleSignal = pe.idleSignal := rfl
@[simp] theorem PE.enterHandler_handover (pc : Word) (m : Masks) (pe : PE) :
    (pe.enterHandler pc m).handover = none := rfl

@[simp] theorem PE.takeSyncProfiling_er (c : Config) (d : Draw) (pe : PE) :
    (pe.takeSyncProfiling c d).arch.er = pe.arch.er := rfl
@[simp] theorem PE.takeSyncProfiling_x (c : Config) (d : Draw) (pe : PE) :
    (pe.takeSyncProfiling c d).arch.x = pe.arch.x := rfl
@[simp] theorem PE.takeSyncProfiling_pc (c : Config) (d : Draw) (pe : PE) :
    (pe.takeSyncProfiling c d).arch.pc = pe.arch.pc := rfl
@[simp] theorem PE.takeSyncProfiling_masks (c : Config) (d : Draw) (pe : PE) :
    (pe.takeSyncProfiling c d).arch.masks = pe.arch.masks := rfl
@[simp] theorem PE.takeSyncProfiling_el (c : Config) (d : Draw) (pe : PE) :
    (pe.takeSyncProfiling c d).arch.el = d.profilingLevel.legal c := rfl
@[simp] theorem PE.takeSyncProfiling_controls (c : Config) (d : Draw) (pe : PE) :
    (pe.takeSyncProfiling c d).arch.controls = pe.arch.controls := rfl
@[simp] theorem PE.takeSyncProfiling_cntvct (c : Config) (d : Draw) (pe : PE) :
    (pe.takeSyncProfiling c d).arch.cntvct = pe.arch.cntvct := rfl
@[simp] theorem PE.takeSyncProfiling_pend (c : Config) (d : Draw) (pe : PE) :
    (pe.takeSyncProfiling c d).arch.pend = pe.arch.pend := rfl
@[simp] theorem PE.takeSyncProfiling_edbgrq (c : Config) (d : Draw) (pe : PE) :
    (pe.takeSyncProfiling c d).arch.edbgrq = pe.arch.edbgrq := rfl
@[simp] theorem PE.takeSyncProfiling_capture (c : Config) (d : Draw) (pe : PE) :
    (pe.takeSyncProfiling c d).arch.capture = pe.arch.capture := rfl
@[simp] theorem PE.takeSyncProfiling_profiling (c : Config) (d : Draw) (pe : PE) :
    (pe.takeSyncProfiling c d).arch.profiling = pe.arch.profiling := rfl
@[simp] theorem PE.takeSyncProfiling_syncProfiling (c : Config) (d : Draw) (pe : PE) :
    (pe.takeSyncProfiling c d).arch.syncProfiling = false := rfl
@[simp] theorem PE.takeSyncProfiling_inputs (c : Config) (d : Draw) (pe : PE) :
    (pe.takeSyncProfiling c d).inputs = pe.inputs := rfl
@[simp] theorem PE.takeSyncProfiling_lp (c : Config) (d : Draw) (pe : PE) :
    (pe.takeSyncProfiling c d).lp = LowPower.running := rfl
@[simp] theorem PE.takeSyncProfiling_idle (c : Config) (d : Draw) (pe : PE) :
    (pe.takeSyncProfiling c d).idle = false := rfl
@[simp] theorem PE.takeSyncProfiling_idleSignal (c : Config) (d : Draw) (pe : PE) :
    (pe.takeSyncProfiling c d).idleSignal = false := rfl
@[simp] theorem PE.takeSyncProfiling_handover (c : Config) (d : Draw) (pe : PE) :
    (pe.takeSyncProfiling c d).handover = some { cause := .syncProfiling, target := d.profilingLevel.legal c, returnAddr := pe.arch.pc } := rfl

@[simp] theorem PE.serviceCapture_er (pe : PE) : (pe.serviceCapture).arch.er = pe.arch.er := rfl
@[simp] theorem PE.serviceCapture_x (pe : PE) : (pe.serviceCapture).arch.x = pe.arch.x := rfl
@[simp] theorem PE.serviceCapture_pc (pe : PE) : (pe.serviceCapture).arch.pc = pe.arch.pc := rfl
@[simp] theorem PE.serviceCapture_masks (pe : PE) : (pe.serviceCapture).arch.masks = pe.arch.masks := rfl
@[simp] theorem PE.serviceCapture_el (pe : PE) : (pe.serviceCapture).arch.el = pe.arch.el := rfl
@[simp] theorem PE.serviceCapture_controls (pe : PE) :
    (pe.serviceCapture).arch.controls = pe.arch.controls := rfl
@[simp] theorem PE.serviceCapture_cntvct (pe : PE) : (pe.serviceCapture).arch.cntvct = pe.arch.cntvct := rfl
@[simp] theorem PE.serviceCapture_pend (pe : PE) : (pe.serviceCapture).arch.pend = pe.arch.pend := rfl
@[simp] theorem PE.serviceCapture_edbgrq (pe : PE) : (pe.serviceCapture).arch.edbgrq = pe.arch.edbgrq := rfl
@[simp] theorem PE.serviceCapture_capture (pe : PE) : (pe.serviceCapture).arch.capture = false := rfl
@[simp] theorem PE.serviceCapture_profiling (pe : PE) :
    (pe.serviceCapture).arch.profiling = pe.arch.profiling := rfl
@[simp] theorem PE.serviceCapture_syncProfiling (pe : PE) :
    (pe.serviceCapture).arch.syncProfiling = pe.arch.syncProfiling := rfl
@[simp] theorem PE.serviceCapture_inputs (pe : PE) : (pe.serviceCapture).inputs = pe.inputs := rfl
@[simp] theorem PE.serviceCapture_lp (pe : PE) : (pe.serviceCapture).lp = pe.lp := rfl
@[simp] theorem PE.serviceCapture_idle (pe : PE) : (pe.serviceCapture).idle = pe.idle := rfl
@[simp] theorem PE.serviceCapture_idleSignal (pe : PE) : (pe.serviceCapture).idleSignal = pe.idleSignal := rfl
@[simp] theorem PE.serviceCapture_handover (pe : PE) : (pe.serviceCapture).handover = pe.handover := rfl

/-! ### The environment -/

@[simp] theorem PE.mapArch_arch (f : Arch → Arch) (pe : PE) : (pe.mapArch f).arch = f pe.arch := rfl
@[simp] theorem PE.mapArch_inputs (f : Arch → Arch) (pe : PE) : (pe.mapArch f).inputs = pe.inputs := rfl
@[simp] theorem PE.mapArch_lp (f : Arch → Arch) (pe : PE) : (pe.mapArch f).lp = pe.lp := rfl
@[simp] theorem PE.mapArch_idle (f : Arch → Arch) (pe : PE) : (pe.mapArch f).idle = pe.idle := rfl
@[simp] theorem PE.mapArch_idleSignal (f : Arch → Arch) (pe : PE) :
    (pe.mapArch f).idleSignal = pe.idleSignal := rfl
@[simp] theorem PE.mapArch_handover (f : Arch → Arch) (pe : PE) : (pe.mapArch f).handover = pe.handover := rfl

@[simp] theorem Arch.raise_er (x : AsyncExc) (a : Arch) : (a.raise x).er = a.er := rfl
@[simp] theorem Arch.raise_x (x : AsyncExc) (a : Arch) : (a.raise x).x = a.x := rfl
@[simp] theorem Arch.raise_pc (x : AsyncExc) (a : Arch) : (a.raise x).pc = a.pc := rfl
@[simp] theorem Arch.raise_masks (x : AsyncExc) (a : Arch) : (a.raise x).masks = a.masks := rfl
@[simp] theorem Arch.raise_el (x : AsyncExc) (a : Arch) : (a.raise x).el = a.el := rfl
@[simp] theorem Arch.raise_controls (x : AsyncExc) (a : Arch) : (a.raise x).controls = a.controls := rfl
@[simp] theorem Arch.raise_cntvct (x : AsyncExc) (a : Arch) : (a.raise x).cntvct = a.cntvct := rfl
@[simp] theorem Arch.raise_pend (x : AsyncExc) (a : Arch) :
    (a.raise x).pend = if x ∈ a.pend then a.pend else x :: a.pend := rfl
@[simp] theorem Arch.raise_edbgrq (x : AsyncExc) (a : Arch) : (a.raise x).edbgrq = a.edbgrq := rfl
@[simp] theorem Arch.raise_capture (x : AsyncExc) (a : Arch) : (a.raise x).capture = a.capture := rfl
@[simp] theorem Arch.raise_profiling (x : AsyncExc) (a : Arch) : (a.raise x).profiling = a.profiling := rfl
@[simp] theorem Arch.raise_syncProfiling (x : AsyncExc) (a : Arch) :
    (a.raise x).syncProfiling = a.syncProfiling := rfl

@[simp] theorem Arch.withdraw_er (x : AsyncExc) (a : Arch) : (a.withdraw x).er = a.er := rfl
@[simp] theorem Arch.withdraw_x (x : AsyncExc) (a : Arch) : (a.withdraw x).x = a.x := rfl
@[simp] theorem Arch.withdraw_pc (x : AsyncExc) (a : Arch) : (a.withdraw x).pc = a.pc := rfl
@[simp] theorem Arch.withdraw_masks (x : AsyncExc) (a : Arch) : (a.withdraw x).masks = a.masks := rfl
@[simp] theorem Arch.withdraw_el (x : AsyncExc) (a : Arch) : (a.withdraw x).el = a.el := rfl
@[simp] theorem Arch.withdraw_controls (x : AsyncExc) (a : Arch) : (a.withdraw x).controls = a.controls := rfl
@[simp] theorem Arch.withdraw_cntvct (x : AsyncExc) (a : Arch) : (a.withdraw x).cntvct = a.cntvct := rfl
@[simp] theorem Arch.withdraw_pend (x : AsyncExc) (a : Arch) :
    (a.withdraw x).pend = a.pend.filter fun y => decide (y ≠ x) := rfl
@[simp] theorem Arch.withdraw_edbgrq (x : AsyncExc) (a : Arch) : (a.withdraw x).edbgrq = a.edbgrq := rfl
@[simp] theorem Arch.withdraw_capture (x : AsyncExc) (a : Arch) : (a.withdraw x).capture = a.capture := rfl
@[simp] theorem Arch.withdraw_profiling (x : AsyncExc) (a : Arch) :
    (a.withdraw x).profiling = a.profiling := rfl
@[simp] theorem Arch.withdraw_syncProfiling (x : AsyncExc) (a : Arch) :
    (a.withdraw x).syncProfiling = a.syncProfiling := rfl

/-! ### Reset of one PE -/

@[simp] theorem PE.resetStep_er (c : Config) (d : Draw) (pe : PE) :
    (pe.resetStep c d).arch.er = d.unknown.er := rfl
@[simp] theorem PE.resetStep_x (c : Config) (d : Draw) (pe : PE) :
    (pe.resetStep c d).arch.x = d.unknown.x := rfl
@[simp] theorem PE.resetStep_pc (c : Config) (d : Draw) (pe : PE) :
    (pe.resetStep c d).arch.pc = c.resetPc := rfl
@[simp] theorem PE.resetStep_masks (c : Config) (d : Draw) (pe : PE) :
    (pe.resetStep c d).arch.masks = d.unknown.masks := rfl
@[simp] theorem PE.resetStep_el (c : Config) (d : Draw) (pe : PE) :
    (pe.resetStep c d).arch.el = d.unknown.el.legal c := rfl
@[simp] theorem PE.resetStep_controls (c : Config) (d : Draw) (pe : PE) :
    (pe.resetStep c d).arch.controls = d.unknown.controls := rfl
@[simp] theorem PE.resetStep_cntvct (c : Config) (d : Draw) (pe : PE) :
    (pe.resetStep c d).arch.cntvct = d.unknown.cntvct := rfl
@[simp] theorem PE.resetStep_pend (c : Config) (d : Draw) (pe : PE) :
    (pe.resetStep c d).arch.pend = d.unknown.pend := rfl
@[simp] theorem PE.resetStep_edbgrq (c : Config) (d : Draw) (pe : PE) :
    (pe.resetStep c d).arch.edbgrq = d.unknown.edbgrq := rfl
@[simp] theorem PE.resetStep_capture (c : Config) (d : Draw) (pe : PE) :
    (pe.resetStep c d).arch.capture = d.unknown.capture := rfl
@[simp] theorem PE.resetStep_profiling (c : Config) (d : Draw) (pe : PE) :
    (pe.resetStep c d).arch.profiling = d.unknown.profiling := rfl
@[simp] theorem PE.resetStep_syncProfiling (c : Config) (d : Draw) (pe : PE) :
    (pe.resetStep c d).arch.syncProfiling = d.unknown.syncProfiling := rfl
@[simp] theorem PE.resetStep_inputs (c : Config) (d : Draw) (pe : PE) :
    (pe.resetStep c d).inputs = pe.inputs := rfl
@[simp] theorem PE.resetStep_lp (c : Config) (d : Draw) (pe : PE) :
    (pe.resetStep c d).lp = LowPower.running := rfl
@[simp] theorem PE.resetStep_idle (c : Config) (d : Draw) (pe : PE) : (pe.resetStep c d).idle = false := rfl
@[simp] theorem PE.resetStep_idleSignal (c : Config) (d : Draw) (pe : PE) :
    (pe.resetStep c d).idleSignal = false := rfl
@[simp] theorem PE.resetStep_handover (c : Config) (d : Draw) (pe : PE) :
    (pe.resetStep c d).handover = none := rfl

/-! ### The machine -/

@[simp] theorem State.setActing_config (pe : PE) (s : State) : (s.setActing pe).config = s.config := rfl
@[simp] theorem State.setActing_pes (pe : PE) (s : State) :
    (s.setActing pe).pes = s.pes.set s.turn.pe pe := rfl
@[simp] theorem State.setActing_inflight (pe : PE) (s : State) : (s.setActing pe).inflight = s.inflight := rfl
@[simp] theorem State.setActing_mem (pe : PE) (s : State) : (s.setActing pe).mem = s.mem := rfl
@[simp] theorem State.setActing_turn (pe : PE) (s : State) : (s.setActing pe).turn = s.turn := rfl
@[simp] theorem State.setActing_draw (pe : PE) (s : State) : (s.setActing pe).draw = s.draw := rfl
@[simp] theorem State.setActing_tick (pe : PE) (s : State) : (s.setActing pe).tick = s.tick := rfl

@[simp] theorem State.signal_config (l : List (Nat × Cause)) (s : State) :
    (s.signal l).config = s.config := rfl
@[simp] theorem State.signal_pes (l : List (Nat × Cause)) (s : State) : (s.signal l).pes = s.pes := rfl
@[simp] theorem State.signal_inflight (l : List (Nat × Cause)) (s : State) :
    (s.signal l).inflight = s.inflight ++ l := rfl
@[simp] theorem State.signal_mem (l : List (Nat × Cause)) (s : State) : (s.signal l).mem = s.mem := rfl
@[simp] theorem State.signal_turn (l : List (Nat × Cause)) (s : State) : (s.signal l).turn = s.turn := rfl
@[simp] theorem State.signal_draw (l : List (Nat × Cause)) (s : State) : (s.signal l).draw = s.draw := rfl
@[simp] theorem State.signal_tick (l : List (Nat × Cause)) (s : State) : (s.signal l).tick = s.tick := rfl

@[simp] theorem State.rollOver_config (s : State) : (s.rollOver).config = s.config := rfl
@[simp] theorem State.rollOver_pes (s : State) : (s.rollOver).pes = s.pes := rfl
@[simp] theorem State.rollOver_inflight (s : State) : (s.rollOver).inflight = s.inflight := rfl
@[simp] theorem State.rollOver_mem (s : State) : (s.rollOver).mem = s.mem := rfl
@[simp] theorem State.rollOver_turn (s : State) : (s.rollOver).turn = Config.freeTurn s.tick := rfl
@[simp] theorem State.rollOver_draw (s : State) : (s.rollOver).draw = Config.freeDraw s.tick := rfl
@[simp] theorem State.rollOver_tick (s : State) : (s.rollOver).tick = s.tick + 1 := rfl

@[simp] theorem State.withChoice_config (t : Turn) (d : Draw) (s : State) :
    (s.withChoice t d).config = s.config := rfl
@[simp] theorem State.withChoice_pes (t : Turn) (d : Draw) (s : State) : (s.withChoice t d).pes = s.pes := rfl
@[simp] theorem State.withChoice_inflight (t : Turn) (d : Draw) (s : State) :
    (s.withChoice t d).inflight = s.inflight := rfl
@[simp] theorem State.withChoice_mem (t : Turn) (d : Draw) (s : State) : (s.withChoice t d).mem = s.mem := rfl
@[simp] theorem State.withChoice_turn (t : Turn) (d : Draw) (s : State) : (s.withChoice t d).turn = t := rfl
@[simp] theorem State.withChoice_draw (t : Turn) (d : Draw) (s : State) : (s.withChoice t d).draw = d := rfl
@[simp] theorem State.withChoice_tick (t : Turn) (d : Draw) (s : State) :
    (s.withChoice t d).tick = s.tick := rfl

@[simp] theorem LowPower.running_kind : LowPower.running.kind = .run := rfl
@[simp] theorem LowPower.running_timeout : LowPower.running.timeout = none := rfl
@[simp] theorem LowPower.running_trap : LowPower.running.trap = none := rfl

end Sys2Proof.Machine
end

