-- ==== Sys2Proof/Laws/Memory.lean ====
section
/-! SUPPORT. Memory: a read after a write, and the canonical form, which every operation keeps. -/

namespace Sys2Proof.Machine

theorem Memory.above_mono {a b : Nat} {m : Memory} (h : a ≤ b) (hm : m.above b = true) :
    m.above a = true := by
  simp only [Memory.above, List.all_eq_true, decide_eq_true_eq] at *
  exact fun c hc => lt_of_le_of_lt h (hm c hc)

theorem Memory.read_of_above {a b : Nat} {m : Memory} (hm : m.above a = true) (h : b ≤ a) :
    m.read b = none := by
  induction m with
  | nil => rfl
  | cons c m ih =>
    obtain ⟨k, v⟩ := c
    simp only [Memory.above, List.all_cons, Bool.and_eq_true, decide_eq_true_eq] at hm
    have hk : k ≠ b := by omega
    simp only [Memory.read, hk, if_false]
    exact ih hm.2

/-- A read after a write to the same address gives the byte written. -/
theorem Memory.read_write_same (m : Memory) (a : Nat) (b : Byte) :
    (m.write a b).read a = some b := by
  induction m with
  | nil => simp [Memory.write, Memory.read]
  | cons c m ih =>
    obtain ⟨k, v⟩ := c
    simp only [Memory.write]
    split
    · simp [Memory.read]
    · split
      · simp [Memory.read]
      · rename_i _ hne
        simp only [Memory.read]
        rw [if_neg (fun h => hne h.symm)]
        exact ih

/-- A write leaves every other address alone. -/
theorem Memory.read_write_other (m : Memory) {a a' : Nat} (b : Byte) (h : a' ≠ a) :
    (m.write a b).read a' = m.read a' := by
  induction m with
  | nil => simp [Memory.write, Memory.read, h.symm]
  | cons c m ih =>
    obtain ⟨k, v⟩ := c
    simp only [Memory.write]
    split
    · simp [Memory.read, h.symm]
    · split
      · rename_i hk
        simp [Memory.read, h.symm, ← hk]
      · simp only [Memory.read, ih]

theorem Memory.above_write {k a : Nat} {b : Byte} {m : Memory} (hm : m.above k = true) (h : k < a) :
    (m.write a b).above k = true := by
  induction m with
  | nil => simp [Memory.write, Memory.above, h]
  | cons c m ih =>
    obtain ⟨j, v⟩ := c
    simp only [Memory.above, List.all_cons, Bool.and_eq_true, decide_eq_true_eq] at hm
    simp only [Memory.write]
    split
    · simp only [Memory.above, List.all_cons, Bool.and_eq_true, decide_eq_true_eq]
      exact ⟨h, hm⟩
    · split
      · simp only [Memory.above, List.all_cons, Bool.and_eq_true, decide_eq_true_eq]
        exact ⟨h, hm.2⟩
      · have := ih hm.2
        simp only [Memory.above, List.all_cons, Bool.and_eq_true, decide_eq_true_eq] at *
        exact ⟨hm.1, this⟩

/-- A write keeps the canonical form. -/
theorem Memory.wf_write {m : Memory} (a : Nat) (b : Byte) (hm : m.wf = true) :
    (m.write a b).wf = true := by
  induction m with
  | nil => simp [Memory.write, Memory.wf, Memory.above]
  | cons c m ih =>
    obtain ⟨k, v⟩ := c
    simp only [Memory.wf, Bool.and_eq_true] at hm
    simp only [Memory.write]
    split
    · rename_i hlt
      simp only [Memory.wf, Bool.and_eq_true]
      refine ⟨?_, hm.1, hm.2⟩
      simp only [Memory.above, List.all_cons, Bool.and_eq_true, decide_eq_true_eq]
      exact ⟨hlt, Memory.above_mono (le_of_lt hlt) hm.1⟩
    · split
      · rename_i heq
        simp only [Memory.wf, Bool.and_eq_true]
        exact ⟨heq ▸ hm.1, hm.2⟩
      · simp only [Memory.wf, Bool.and_eq_true]
        exact ⟨Memory.above_write hm.1 (by omega), ih hm.2⟩

/-- Storing a run of bytes keeps the canonical form. -/
theorem Memory.wf_writeBytes {m : Memory} (a : Nat) (bs : List Byte) (hm : m.wf = true) :
    (m.writeBytes a bs).wf = true := by
  induction bs generalizing m a with
  | nil => exact hm
  | cons b bs ih => exact ih (a + 1) (Memory.wf_write a b hm)

/-- A byte below the run that is stored is left alone. -/
theorem Memory.read_writeBytes_below {m : Memory} {a a' : Nat} (bs : List Byte) (h : a' < a) :
    (m.writeBytes a bs).read a' = m.read a' := by
  induction bs generalizing m a with
  | nil => rfl
  | cons b bs ih =>
    rw [Memory.writeBytes, ih (by omega), Memory.read_write_other _ _ (by omega)]

/-- A byte above the run that is stored is left alone. -/
theorem Memory.read_writeBytes_above {m : Memory} {a a' : Nat} (bs : List Byte)
    (h : a + bs.length ≤ a') : (m.writeBytes a bs).read a' = m.read a' := by
  induction bs generalizing m a with
  | nil => rfl
  | cons b bs ih =>
    simp only [List.length_cons] at h
    rw [Memory.writeBytes, ih (by omega), Memory.read_write_other _ _ (by omega)]

/-- The word the fetch reads after the four bytes of a word were stored is that word. -/
theorem Memory.fetchWord_writeBytes (m : Memory) (a : Nat) (b0 b1 b2 b3 : Byte) :
    (m.writeBytes a [b0, b1, b2, b3]).fetchWord a = .ok (wordOfBytes b0 b1 b2 b3) := by
  have h0 : (m.writeBytes a [b0, b1, b2, b3]).read a = some b0 := by
    rw [Memory.writeBytes, Memory.read_writeBytes_below _ (by omega), Memory.read_write_same]
  have h1 : (m.writeBytes a [b0, b1, b2, b3]).read (a + 1) = some b1 := by
    rw [Memory.writeBytes, Memory.writeBytes, Memory.read_writeBytes_below _ (by omega),
      Memory.read_write_same]
  have h2 : (m.writeBytes a [b0, b1, b2, b3]).read (a + 2) = some b2 := by
    rw [Memory.writeBytes, Memory.writeBytes, Memory.writeBytes,
      Memory.read_writeBytes_below _ (by omega), Memory.read_write_same]
  have h3 : (m.writeBytes a [b0, b1, b2, b3]).read (a + 3) = some b3 := by
    simp only [Memory.writeBytes, Memory.read_write_same]
  simp only [Memory.fetchWord, h0, h1, h2, h3]

/-- The memory of the machine right after reset is in canonical form. -/
theorem Memory.wf_reset : State.reset.mem.wf = true := rfl

end Sys2Proof.Machine
end

