-- ==== Sys2Proof/Laws/Ops.lean ====
section
/-! SUPPORT. One lemma for each shared operation that says all it can do; proofs cite these and do
not unfold the operation. -/

namespace Sys2Proof.Machine

/-! ### Exception levels and the program counter -/

theorem EL.legal_implemented (c : Config) (e : EL) : (e.legal c).implemented c = true := by
  unfold EL.legal
  split
  · assumption
  · rfl

theorem EL.legal_of_implemented {c : Config} {e : EL} (h : e.implemented c = true) :
    e.legal c = e := by
  simp [EL.legal, h]

theorem pcAligned_alignDown (a : Word) : pcAligned (alignDown a) = true := by
  have : a.toNat / 4 * 4 < 2 ^ 64 := lt_of_le_of_lt (Nat.div_mul_le_self _ _) a.isLt
  simp only [pcAligned, alignDown, BitVec.toNat_ofNat, Nat.mod_eq_of_lt this, beq_iff_eq]
  omega

/-- Away from the top of the address space the next pc is 4 bytes on. -/
theorem nextPc_toNat {d : Draw} {pc : Word} (h : pc.toNat + 4 < 2 ^ 64) :
    (nextPc d pc).toNat = pc.toNat + 4 := by
  simp only [nextPc, h, if_true, BitVec.toNat_add, BitVec.toNat_ofNat]
  omega

/-- The next pc of an aligned pc is aligned, at the top of the address space too. -/
theorem pcAligned_nextPc {pc : Word} (d : Draw) (h : pcAligned pc = true) :
    pcAligned (nextPc d pc) = true := by
  by_cases hlt : pc.toNat + 4 < 2 ^ 64
  · simp only [pcAligned, nextPc_toNat hlt, beq_iff_eq] at *
    omega
  · simp only [nextPc, hlt, if_false]
    exact pcAligned_alignDown _

/-! ### The acting PE -/

theorem State.acting?_lt {s : State} {pe : PE} (h : s.acting? = some pe) :
    s.turn.pe < s.pes.length := (List.getElem?_eq_some_iff.mp h).1

theorem State.acting?_mem {s : State} {pe : PE} (h : s.acting? = some pe) : pe ∈ s.pes :=
  List.mem_of_getElem? h

theorem State.setActing_acting? {s : State} {pe pe' : PE} (h : s.acting? = some pe) :
    (s.setActing pe').acting? = some pe' := by
  simp [State.acting?, State.setActing, State.acting?_lt h]

/-- Replacing the acting PE leaves every other PE alone. -/
theorem State.setActing_other {s : State} {pe : PE} {q : Nat} (h : q ≠ s.turn.pe) :
    (s.setActing pe).pes[q]? = s.pes[q]? := by
  simp [State.setActing, h.symm]

/-- Replacing the acting PE by itself changes nothing. -/
theorem State.setActing_self {s : State} {pe : PE} (h : s.acting? = some pe) :
    s.setActing pe = s := by
  obtain ⟨hlt, rfl⟩ := List.getElem?_eq_some_iff.mp h
  simp [State.setActing]

theorem State.mapActing_of_some {s : State} {pe : PE} (h : s.acting? = some pe) (f : PE → PE) :
    s.mapActing f = s.setActing (f pe) := by
  simp [State.mapActing, h]

theorem State.mapActing_of_none {s : State} (h : s.acting? = none) (f : PE → PE) :
    s.mapActing f = s := by
  simp [State.mapActing, h]

/-- What `mapActing` can do: nothing where there is no acting PE, else replace it. -/
theorem State.mapActing_cases (s : State) (f : PE → PE) :
    (s.acting? = none ∧ s.mapActing f = s) ∨
    ∃ pe, s.acting? = some pe ∧ s.mapActing f = s.setActing (f pe) := by
  cases h : s.acting? with
  | none => exact .inl ⟨rfl, State.mapActing_of_none h f⟩
  | some pe => exact .inr ⟨pe, rfl, State.mapActing_of_some h f⟩

theorem State.mapActing_other {s : State} {f : PE → PE} {q : Nat} (h : q ≠ s.turn.pe) :
    (s.mapActing f).pes[q]? = s.pes[q]? := by
  rcases s.mapActing_cases f with ⟨_, e⟩ | ⟨_, _, e⟩ <;> rw [e]
  exact State.setActing_other h

@[simp] theorem State.mapActing_config (s : State) (f : PE → PE) : (s.mapActing f).config = s.config := by
  unfold State.mapActing; split <;> rfl

@[simp] theorem State.mapActing_mem (s : State) (f : PE → PE) : (s.mapActing f).mem = s.mem := by
  unfold State.mapActing; split <;> rfl

@[simp] theorem State.mapActing_inflight (s : State) (f : PE → PE) :
    (s.mapActing f).inflight = s.inflight := by
  unfold State.mapActing; split <;> rfl

@[simp] theorem State.mapActing_turn (s : State) (f : PE → PE) : (s.mapActing f).turn = s.turn := by
  unfold State.mapActing; split <;> rfl

@[simp] theorem State.mapActing_draw (s : State) (f : PE → PE) : (s.mapActing f).draw = s.draw := by
  unfold State.mapActing; split <;> rfl

@[simp] theorem State.mapActing_tick (s : State) (f : PE → PE) : (s.mapActing f).tick = s.tick := by
  unfold State.mapActing; split <;> rfl

@[simp] theorem State.mapActing_length (s : State) (f : PE → PE) :
    (s.mapActing f).pes.length = s.pes.length := by
  rcases s.mapActing_cases f with ⟨_, e⟩ | ⟨_, _, e⟩ <;> rw [e]
  simp

@[simp] theorem State.signal_acting? (s : State) (l : List (Nat × Cause)) :
    (s.signal l).acting? = s.acting? := rfl

/-! ### Results -/

/-- `whenExecuting` gives a next state exactly where the acting PE has an instruction step. -/
theorem State.whenExecuting_eq_next {s t u : State} :
    s.whenExecuting t = .next u ↔ (∃ pe, s.Running pe) ∧ u = t := by
  unfold State.whenExecuting State.Running
  cases s.acting? with
  | none => simp
  | some pe =>
    cases hx : pe.executing
    · simp only [hx, Bool.false_eq_true, if_false, reduceCtorEq, Option.some.injEq, false_iff]
      rintro ⟨⟨q, rfl, hq⟩, _⟩
      rw [hx] at hq
      cases hq
    · simp only [hx, if_true, Host.Outcome.next.injEq, Option.some.injEq]
      exact ⟨fun h => ⟨⟨pe, rfl, hx⟩, h.symm⟩, fun h => h.2.symm⟩

theorem State.whenExecuting_of_running {s t : State} {pe : PE} (h : s.Running pe) :
    s.whenExecuting t = .next t := State.whenExecuting_eq_next.mpr ⟨⟨pe, h⟩, rfl⟩

theorem PE.executing_iff {pe : PE} :
    pe.executing = true ↔ pe.lp.kind = .run ∧ pe.handover = none := by
  simp [PE.executing]

theorem rollOverResult_eq_next {r : Result} {t : State} :
    rollOverResult r = .next t ↔ ∃ u, r = .next u ∧ t = u.rollOver := by
  cases r <;> simp [rollOverResult, eq_comm]

/-! ### Traps -/

/-- No trap goes to EL0. -/
@[simp] theorem PE.subjectTo_el0 (c : Config) (pe : PE) (w : WFx) :
    pe.subjectTo c w .el0 = false := by
  simp [PE.subjectTo, EL.rank]

/-- A trap target is a level the attempt is subject to a trap at, and no lower such level exists. -/
theorem PE.trapTarget_eq_some {c : Config} {pe : PE} {w : WFx} {el : EL}
    (h : pe.trapTarget c w = some el) :
    pe.subjectTo c w el = true ∧ ∀ e, pe.subjectTo c w e = true → el.rank ≤ e.rank := by
  have low : ∀ {a e : EL}, (∀ b, b.rank < a.rank → pe.subjectTo c w b = false) →
      pe.subjectTo c w e = true → a.rank ≤ e.rank := by
    intro a e hb he
    by_contra hlt
    rw [hb e (by omega)] at he
    cases he
  have h0 := PE.subjectTo_el0 c pe w
  unfold PE.trapTarget at h
  split at h
  · rename_i h1
    cases h
    exact ⟨h1, fun e => low fun b hb => by cases b <;> simp_all [EL.rank]⟩
  · rename_i h1
    rw [Bool.not_eq_true] at h1
    split at h
    · rename_i h2
      cases h
      exact ⟨h2, fun e => low fun b hb => by cases b <;> first | assumption | simp [EL.rank] at hb⟩
    · rename_i h2
      rw [Bool.not_eq_true] at h2
      split at h
      · rename_i h3
        cases h
        exact ⟨h3, fun e => low fun b hb => by cases b <;> first | assumption | simp [EL.rank] at hb⟩
      · cases h

/-- There is no trap target exactly where the attempt is subject to no trap. -/
theorem PE.trapTarget_eq_none {c : Config} {pe : PE} {w : WFx} :
    pe.trapTarget c w = none ↔ ∀ e, pe.subjectTo c w e = false := by
  constructor
  · intro h e
    have h0 := PE.subjectTo_el0 c pe w
    unfold PE.trapTarget at h
    split at h
    · cases h
    · rename_i h1
      split at h
      · cases h
      · rename_i h2
        split at h
        · cases h
        · rename_i h3
          rw [Bool.not_eq_true] at h1 h2 h3
          cases e <;> assumption
  · intro h
    simp [PE.trapTarget, h]

theorem PE.subjectTo_iff {c : Config} {pe : PE} {w : WFx} {el : EL} :
    pe.subjectTo c w el = true ↔
      el.implemented c = true ∧ pe.arch.el.rank < el.rank ∧ pe.arch.controls.traps w el = true := by
  simp [PE.subjectTo, and_assoc]

/-- All an attempt to enter a low-power state can do. -/
theorem PE.attempt_cases (c : Config) (d : Draw) (w : WFx) (t : Option Word) (pe : PE) :
    (d.enter = false ∧ pe.attempt c d w t = pe.complete d) ∨
    (d.enter = true ∧ pe.trapTarget c w = none ∧ pe.attempt c d w t = pe.suspend w.kind t none) ∨
    (∃ el, d.enter = true ∧ pe.trapTarget c w = some el ∧ pe.trapDelayed c w el = true ∧
      pe.attempt c d w t = pe.suspend w.kind t (some el)) ∨
    (∃ el, d.enter = true ∧ pe.trapTarget c w = some el ∧ pe.trapDelayed c w el = false ∧
      pe.attempt c d w t = pe.takeException (.trap w) el) := by
  cases he : d.enter
  · exact .inl ⟨rfl, by simp [PE.attempt, he]⟩
  · cases ht : pe.trapTarget c w with
    | none => exact .inr (.inl ⟨rfl, rfl, by simp [PE.attempt, he, ht]⟩)
    | some el =>
      cases hd : pe.trapDelayed c w el
      · exact .inr (.inr (.inr ⟨el, rfl, rfl, hd, by simp [PE.attempt, he, ht, hd]⟩))
      · exact .inr (.inr (.inl ⟨el, rfl, rfl, hd, by simp [PE.attempt, he, ht, hd]⟩))

theorem PE.attempt_of_not_entering {d : Draw} (c : Config) (w : WFx) (th : Option Word) (pe : PE)
    (h : d.enter = false) : pe.attempt c d w th = pe.complete d := by
  simp [PE.attempt, h]

theorem PE.attempt_of_no_trap {c : Config} {d : Draw} {w : WFx} {pe : PE} (th : Option Word)
    (h : d.enter = true) (ht : pe.trapTarget c w = none) :
    pe.attempt c d w th = pe.suspend w.kind th none := by
  simp [PE.attempt, h, ht]

theorem PE.attempt_of_delayed_trap {c : Config} {d : Draw} {w : WFx} {pe : PE} {el : EL}
    (th : Option Word) (h : d.enter = true) (ht : pe.trapTarget c w = some el)
    (hd : pe.trapDelayed c w el = true) :
    pe.attempt c d w th = pe.suspend w.kind th (some el) := by
  simp [PE.attempt, h, ht, hd]

theorem PE.attempt_of_trap {c : Config} {d : Draw} {w : WFx} {pe : PE} {el : EL}
    (th : Option Word) (h : d.enter = true) (ht : pe.trapTarget c w = some el)
    (hd : pe.trapDelayed c w el = false) :
    pe.attempt c d w th = pe.takeException (.trap w) el := by
  simp [PE.attempt, h, ht, hd]

theorem PE.waitForEvent_of_set {pe : PE} (c : Config) (d : Draw) (w : WFx) (th : Option Word)
    (h : pe.arch.er = 1#1) : pe.waitForEvent c d w th = (pe.setER 0#1).complete d := by
  simp [PE.waitForEvent, h]

theorem PE.waitForEvent_of_clear {pe : PE} (c : Config) (d : Draw) (w : WFx) (th : Option Word)
    (h : pe.arch.er = 0#1) : pe.waitForEvent c d w th = pe.attempt c d w th := by
  simp [PE.waitForEvent, h]

/-- All WFE and WFET can do once no profiling exception comes first. -/
theorem PE.waitForEvent_cases (c : Config) (d : Draw) (w : WFx) (t : Option Word) (pe : PE) :
    (pe.arch.er = 1#1 ∧ pe.waitForEvent c d w t = (pe.setER 0#1).complete d) ∨
    (pe.arch.er = 0#1 ∧ pe.waitForEvent c d w t = pe.attempt c d w t) := by
  by_cases h : pe.arch.er = 1#1
  · exact .inl ⟨h, by simp [PE.waitForEvent, h]⟩
  · refine .inr ⟨?_, by simp [PE.waitForEvent, h]⟩
    have := pe.arch.er.isLt
    apply BitVec.eq_of_toNat_eq
    have h' : pe.arch.er.toNat ≠ 1 := fun e => h (BitVec.eq_of_toNat_eq (by simpa using e))
    simp only [BitVec.toNat_ofNat]
    omega

/-- A waiting instruction takes the pending synchronous profiling exception, or does its body. -/
theorem PE.profilingFirst_cases (c : Config) (d : Draw) (f : PE → PE) (pe : PE) :
    (c.featSEBEP = true ∧ pe.arch.syncProfiling = true ∧
      pe.profilingFirst c d f = pe.takeSyncProfiling c d) ∨
    ((c.featSEBEP = true → pe.arch.syncProfiling = false) ∧ pe.profilingFirst c d f = f pe) := by
  by_cases h : c.featSEBEP = true ∧ pe.arch.syncProfiling = true
  · exact .inl ⟨h.1, h.2, by simp [PE.profilingFirst, h.1, h.2]⟩
  · refine .inr ⟨fun hc => by simpa [hc] using h, ?_⟩
    unfold PE.profilingFirst
    rw [if_neg (by simpa using h)]

theorem PE.profilingFirst_of_ready {c : Config} {pe : PE} (d : Draw) (f : PE → PE)
    (h : c.featSEBEP = true → pe.arch.syncProfiling = false) :
    pe.profilingFirst c d f = f pe := by
  rcases PE.profilingFirst_cases c d f pe with ⟨h1, h2, _⟩ | ⟨_, e⟩
  · rw [h h1] at h2
    cases h2
  · exact e

/-! ### Events -/

theorem mem_sevPairs {n q p : Nat} {c : Cause} :
    (p, c) ∈ sevPairs n q ↔ p < n ∧ c = .sev q := by
  simp only [sevPairs, List.mem_map, List.mem_range, Prod.mk.injEq]
  constructor
  · rintro ⟨a, ha, rfl, rfl⟩
    exact ⟨ha, rfl⟩
  · rintro ⟨hp, rfl⟩
    exact ⟨p, hp, rfl, rfl⟩

theorem mem_broadcastPairs {n q p : Nat} {c : Cause} :
    (p, c) ∈ broadcastPairs n q ↔ p < n ∧ p ≠ q ∧ c = .impdef := by
  simp only [broadcastPairs, List.mem_map, List.mem_filter, List.mem_range, decide_eq_true_eq,
    Prod.mk.injEq]
  constructor
  · rintro ⟨a, ⟨ha, hn⟩, rfl, rfl⟩
    exact ⟨ha, hn, rfl⟩
  · rintro ⟨hp, hn, rfl⟩
    exact ⟨p, ⟨hp, hn⟩, rfl, rfl⟩

/-- A reset only drops events. -/
theorem mem_of_mem_keepInflight {p : Nat} {ks : List Bool} {l : List (Nat × Cause)}
    {e : Nat × Cause} (h : e ∈ keepInflight p ks l) : e ∈ l := by
  induction l generalizing ks with
  | nil => simp [keepInflight] at h
  | cons a l ih =>
    obtain ⟨q, c⟩ := a
    simp only [keepInflight] at h
    split at h
    · split at h
      · rcases List.mem_cons.mp h with h | h
        · exact h ▸ List.mem_cons_self
        · exact List.mem_cons_of_mem _ (ih h)
      · rcases List.mem_cons.mp h with h | h
        · exact h ▸ List.mem_cons_self
        · exact List.mem_cons_of_mem _ (ih h)
      · exact List.mem_cons_of_mem _ (ih h)
    · rcases List.mem_cons.mp h with h | h
      · exact h ▸ List.mem_cons_self
      · exact List.mem_cons_of_mem _ (ih h)

/-- A reset drops only events for the PE that is reset. -/
theorem mem_keepInflight_of_ne {p q : Nat} {c : Cause} {ks : List Bool} {l : List (Nat × Cause)}
    (hq : q ≠ p) (h : (q, c) ∈ l) : (q, c) ∈ keepInflight p ks l := by
  induction l generalizing ks with
  | nil => cases h
  | cons a l ih =>
    obtain ⟨r, c'⟩ := a
    simp only [keepInflight]
    rcases List.mem_cons.mp h with h | h
    · obtain ⟨rfl, rfl⟩ := Prod.mk.inj h
      rw [if_neg hq]
      exact List.mem_cons_self
    · split
      · split
        · exact List.mem_cons_of_mem _ (ih h)
        · exact List.mem_cons_of_mem _ (ih h)
        · exact ih h
      · exact List.mem_cons_of_mem _ (ih h)

end Sys2Proof.Machine
end

