-- ==== Sys2Proof/Laws/Exec.lean ====
section
/-! SUPPORT. What each instruction does where it gives a next state, and what one step can do. -/

namespace Sys2Proof.Machine

/-! ### Instructions on a running PE -/

theorem execWfe_of_running {s : State} {pe : PE} (h : s.Running pe) :
    execWfe s = .next (s.setActing
      (pe.profilingFirst s.config s.draw (PE.waitForEvent s.config s.draw .wfe none))) := by
  rw [execWfe, State.whenExecuting_of_running h, State.mapActing_of_some h.1]

theorem execWfi_of_running {s : State} {pe : PE} (h : s.Running pe) :
    execWfi s = .next (s.setActing
      (pe.profilingFirst s.config s.draw (PE.attempt s.config s.draw .wfi none))) := by
  rw [execWfi, State.whenExecuting_of_running h, State.mapActing_of_some h.1]

theorem execWfet_of_running {s : State} {pe : PE} (t : RegNum) (h : s.Running pe)
    (hf : s.config.featWFxT = true) :
    execWfet t s = .next (s.setActing
      (pe.profilingFirst s.config s.draw fun q =>
        q.waitForEvent s.config s.draw .wfet (some (q.arch.readX t)))) := by
  rw [execWfet, if_pos hf, State.whenExecuting_of_running h, State.mapActing_of_some h.1]

theorem execWfit_of_running {s : State} {pe : PE} (t : RegNum) (h : s.Running pe)
    (hf : s.config.featWFxT = true) :
    execWfit t s = .next (s.setActing
      (pe.profilingFirst s.config s.draw fun q =>
        q.attempt s.config s.draw .wfit (some (q.arch.readX t)))) := by
  rw [execWfit, if_pos hf, State.whenExecuting_of_running h, State.mapActing_of_some h.1]

theorem execSev_of_running {s : State} {pe : PE} (h : s.Running pe) :
    execSev s = .next ((s.signal (sevPairs s.pes.length s.turn.pe)).setActing (pe.advance s.draw)) := by
  rw [execSev, State.whenExecuting_of_running h,
    State.mapActing_of_some ((State.signal_acting? s _).trans h.1)]

theorem execSevl_of_running {s : State} {pe : PE} (h : s.Running pe) :
    execSevl s = .next
      ((s.signal (if s.draw.sevlBroadcast then broadcastPairs s.pes.length s.turn.pe else [])).setActing
        ((pe.setER 1#1).advance s.draw)) := by
  rw [execSevl, State.whenExecuting_of_running h,
    State.mapActing_of_some ((State.signal_acting? s _).trans h.1)]

/-! ### Waiting instructions on a PE with no profiling exception to take first -/

theorem exec_wfe_of_ready {s : State} {pe : PE} (h : s.WaitReady pe) :
    exec .wfe s = .next (s.setActing (pe.waitForEvent s.config s.draw .wfe none)) := by
  rw [exec, execWfe_of_running h.1, PE.profilingFirst_of_ready _ _ h.2]

theorem exec_wfi_of_ready {s : State} {pe : PE} (h : s.WaitReady pe) :
    exec .wfi s = .next (s.setActing (pe.attempt s.config s.draw .wfi none)) := by
  rw [exec, execWfi_of_running h.1, PE.profilingFirst_of_ready _ _ h.2]

theorem exec_wfet_of_ready {s : State} {pe : PE} (r : RegNum) (h : s.WaitReady pe)
    (hf : s.config.featWFxT = true) :
    exec (.wfet r) s = .next (s.setActing
      (pe.waitForEvent s.config s.draw .wfet (some (pe.arch.readX r)))) := by
  rw [exec, execWfet_of_running r h.1 hf, PE.profilingFirst_of_ready _ _ h.2]

theorem exec_wfit_of_ready {s : State} {pe : PE} (r : RegNum) (h : s.WaitReady pe)
    (hf : s.config.featWFxT = true) :
    exec (.wfit r) s = .next (s.setActing
      (pe.attempt s.config s.draw .wfit (some (pe.arch.readX r)))) := by
  rw [exec, execWfit_of_running r h.1 hf, PE.profilingFirst_of_ready _ _ h.2]

/-- An instruction gives a next state only on a PE that has an instruction step. -/
theorem exec_running {i : Instr} {s t : State} (h : exec i s = .next t) : ∃ pe, s.Running pe := by
  cases i with
  | wfe => exact (State.whenExecuting_eq_next.mp h).1
  | wfi => exact (State.whenExecuting_eq_next.mp h).1
  | sev => exact (State.whenExecuting_eq_next.mp h).1
  | sevl => exact (State.whenExecuting_eq_next.mp h).1
  | wfet r =>
    simp only [exec, execWfet] at h
    split at h
    · exact (State.whenExecuting_eq_next.mp h).1
    · cases h
  | wfit r =>
    simp only [exec, execWfit] at h
    split at h
    · exact (State.whenExecuting_eq_next.mp h).1
    · cases h

/-- WFET and WFIT give a next state only where FEAT_WFxT is implemented. -/
theorem exec_timed_feature {s t : State} {r : RegNum}
    (h : exec (.wfet r) s = .next t ∨ exec (.wfit r) s = .next t) : s.config.featWFxT = true := by
  by_contra hf
  rcases h with h | h
  · simp only [exec, execWfet, if_neg hf, reduceCtorEq] at h
  · simp only [exec, execWfit, if_neg hf, reduceCtorEq] at h

/-- All an instruction can do: a waiting instruction replaces the acting PE; SEV and SEVL also put
events in flight. -/
theorem exec_cases {i : Instr} {s t : State} (h : exec i s = .next t) :
    ∃ pe, s.Running pe ∧
      ((∃ w th, ((i = .wfe ∧ w = .wfe ∧ th = none) ∨
            (∃ r, i = .wfet r ∧ w = .wfet ∧ th = some (pe.arch.readX r) ∧ s.config.featWFxT = true)) ∧
          t = s.setActing (pe.profilingFirst s.config s.draw (PE.waitForEvent s.config s.draw w th))) ∨
       (∃ w th, ((i = .wfi ∧ w = .wfi ∧ th = none) ∨
            (∃ r, i = .wfit r ∧ w = .wfit ∧ th = some (pe.arch.readX r) ∧ s.config.featWFxT = true)) ∧
          t = s.setActing (pe.profilingFirst s.config s.draw (PE.attempt s.config s.draw w th))) ∨
       (i = .sev ∧ t = (s.signal (sevPairs s.pes.length s.turn.pe)).setActing (pe.advance s.draw)) ∨
       (i = .sevl ∧ t =
          (s.signal (if s.draw.sevlBroadcast then broadcastPairs s.pes.length s.turn.pe else [])).setActing
            ((pe.setER 1#1).advance s.draw))) := by
  obtain ⟨pe, hr⟩ := exec_running h
  refine ⟨pe, hr, ?_⟩
  cases i with
  | wfe =>
    have e := (execWfe_of_running hr).symm.trans h
    cases e
    exact .inl ⟨.wfe, none, .inl ⟨rfl, rfl, rfl⟩, rfl⟩
  | wfet r =>
    have hf := exec_timed_feature (.inl h)
    have e := (execWfet_of_running r hr hf).symm.trans h
    refine .inl ⟨.wfet, some (pe.arch.readX r), .inr ⟨r, rfl, rfl, rfl, hf⟩, ?_⟩
    cases e
    rfl
  | wfi =>
    have e := (execWfi_of_running hr).symm.trans h
    cases e
    exact .inr (.inl ⟨.wfi, none, .inl ⟨rfl, rfl, rfl⟩, rfl⟩)
  | wfit r =>
    have hf := exec_timed_feature (.inr h)
    have e := (execWfit_of_running r hr hf).symm.trans h
    refine .inr (.inl ⟨.wfit, some (pe.arch.readX r), .inr ⟨r, rfl, rfl, rfl, hf⟩, ?_⟩)
    cases e
    rfl
  | sev =>
    have e := (execSev_of_running hr).symm.trans h
    cases e
    exact .inr (.inr (.inl ⟨rfl, rfl⟩))
  | sevl =>
    have e := (execSevl_of_running hr).symm.trans h
    cases e
    exact .inr (.inr (.inr ⟨rfl, rfl⟩))

/-! ### One step -/

theorem State.executingPE?_eq_some {s : State} {pe : PE} :
    s.executingPE? = some pe ↔ s.turn.move = .execute ∧ s.Running pe := by
  unfold State.executingPE? State.Running
  split
  · rename_i hm
    rw [Option.filter_eq_some_iff]
    simp [hm]
  · rename_i hm
    simp [hm]

/-- What the fetch answers when it answers an instruction. -/
theorem State.fetch_eq_next {s : State} {pe : PE} {i : Instr} :
    s.fetch pe = .next i ↔ pcAligned pe.arch.pc = true ∧
      ∃ w, s.mem.fetchWord pe.arch.pc.toNat = .ok w ∧ decode s.config w = .ok i := by
  unfold State.fetch
  split
  · rename_i ha
    cases hw : s.mem.fetchWord pe.arch.pc.toNat with
    | error a => simp
    | ok w =>
      cases hd : decode s.config w with
      | error e => simp [hd]
      | ok j => simp [hd, ha]
  · rename_i ha
    simp [ha]

/-- All one step can do: run the fetched instruction of a running PE, or make the move the turn names. -/
theorem step_cases {s t : State} (h : step s = .next t) :
    (∃ pe i u, s.turn.move = .execute ∧ s.Running pe ∧ s.fetch pe = .next i ∧
      exec i s = .next u ∧ t = u.rollOver) ∨
    (s.executingPE? = none ∧ t = (s.act s.turn.move).rollOver) := by
  unfold step at h
  cases hx : s.executingPE? with
  | none =>
    rw [hx] at h
    cases h
    exact .inr ⟨rfl, rfl⟩
  | some pe =>
    rw [hx] at h
    obtain ⟨hm, hr⟩ := State.executingPE?_eq_some.mp hx
    simp only at h
    cases hf : s.fetch pe with
    | fault f => rw [hf] at h; cases h
    | refused r => rw [hf] at h; cases h
    | next i =>
      rw [hf] at h
      obtain ⟨u, hu, ht⟩ := rollOverResult_eq_next.mp h
      exact .inl ⟨pe, i, u, hm, hr, hf, hu, ht⟩

/-- A step whose move is no instruction step always gives a next state. -/
theorem step_of_move {s : State} (h : s.turn.move ≠ .execute) :
    step s = .next (s.act s.turn.move).rollOver := by
  have hx : s.executingPE? = none := by simp [State.executingPE?, h]
  simp [step, hx]

/-- An instruction step of a running PE runs what the fetch answers. -/
theorem step_of_fetch {s : State} {pe : PE} {i : Instr} (hm : s.turn.move = .execute)
    (hr : s.Running pe) (hf : s.fetch pe = .next i) : step s = rollOverResult (exec i s) := by
  have hx := State.executingPE?_eq_some.mpr ⟨hm, hr⟩
  simp [step, hx, hf]

end Sys2Proof.Machine
end

