-- ==== Sys2Proof/Laws/Agents.lean ====
section
/-! SUPPORT. All the moves other than an instruction step can do. -/

namespace Sys2Proof.Machine

/-- A move leaves the machine as it is, or replaces the acting PE and the events in flight. -/
theorem State.act_cases (m : Move) (s : State) :
    s.act m = s ∨ ∃ pe, s.acting? = some pe ∧ s.mayMove m = true ∧
      s.act m = ({ s with inflight := inflightAfter s.turn.pe s.draw m s.inflight }).setActing
        (pe.move s.config s.draw m) := by
  unfold State.act
  cases s.acting? with
  | none => exact .inl rfl
  | some pe =>
    cases hm : s.mayMove m
    · exact .inl (by simp)
    · exact .inr ⟨pe, rfl, rfl, by simp⟩

/-- A move at a PE that exists and that is not held up replaces that PE. -/
theorem State.act_of_acting {s : State} {m : Move} {pe : PE} (h : s.acting? = some pe)
    (hm : s.mayMove m = true) :
    s.act m = ({ s with inflight := inflightAfter s.turn.pe s.draw m s.inflight }).setActing
      (pe.move s.config s.draw m) := by
  simp [State.act, h, hm]

@[simp] theorem State.act_config (m : Move) (s : State) : (s.act m).config = s.config := by
  rcases s.act_cases m with e | ⟨_, _, _, e⟩ <;> rw [e]; rfl

@[simp] theorem State.act_mem (m : Move) (s : State) : (s.act m).mem = s.mem := by
  rcases s.act_cases m with e | ⟨_, _, _, e⟩ <;> rw [e]; rfl

@[simp] theorem State.act_turn (m : Move) (s : State) : (s.act m).turn = s.turn := by
  rcases s.act_cases m with e | ⟨_, _, _, e⟩ <;> rw [e]; rfl

@[simp] theorem State.act_draw (m : Move) (s : State) : (s.act m).draw = s.draw := by
  rcases s.act_cases m with e | ⟨_, _, _, e⟩ <;> rw [e]; rfl

@[simp] theorem State.act_tick (m : Move) (s : State) : (s.act m).tick = s.tick := by
  rcases s.act_cases m with e | ⟨_, _, _, e⟩ <;> rw [e]; rfl

/-- All a delivered event can do. -/
theorem PE.receive_cases (d : Draw) (pe : PE) :
    (pe.lp.kind = .wfe ∧ pe.receive d = (pe.complete d).setER d.erAfterWake) ∨
    ((pe.lp.kind = .run ∨ pe.lp.kind = .wfi) ∧ pe.receive d = pe.setER 1#1) ∨
    (pe.lp.kind = .off ∧ pe.receive d = pe) := by
  unfold PE.receive
  cases h : pe.lp.kind <;> simp

/-- All a wake step can do. -/
theorem PE.wakeStep_cases (d : Draw) (pe : PE) :
    ((pe.lp.kind = .wfe ∨ pe.lp.kind = .wfi) ∧ pe.wakeStep d = pe.complete d) ∨
    ((pe.lp.kind = .run ∨ pe.lp.kind = .off) ∧ pe.wakeStep d = pe) := by
  unfold PE.wakeStep
  cases h : pe.lp.kind <;> simp

/-- All a delayed trap step can do. -/
theorem PE.delayedTrapStep_cases (pe : PE) :
    (∃ el, pe.lp.kind = .wfe ∧ pe.lp.trap = some el ∧
      pe.delayedTrapStep = pe.takeException (.trap pe.lp.suspendedEvent) el) ∨
    pe.delayedTrapStep = pe := by
  unfold PE.delayedTrapStep
  split
  · rename_i el hk ht
    exact .inl ⟨el, hk, ht, rfl⟩
  · exact .inr rfl

/-- All a powerdown can do. -/
theorem PE.powerDown_cases (c : Config) (d : Draw) (pe : PE) :
    (pe.lp.kind = .wfi ∧ c.wfiCanComplete = false ∧
      pe.powerDown c d =
        { pe with
          arch := { d.unknown with el := d.unknown.el.legal c }
          lp := { kind := .off, timeout := none, trap := none }
          idle := false
          idleSignal := false
          handover := none }) ∨
    pe.powerDown c d = pe := by
  unfold PE.powerDown
  split
  · rename_i h
    exact .inl ⟨h.1, h.2, rfl⟩
  · exact .inr rfl

/-- All `BecomeIdle` can do. -/
theorem PE.becomeIdle_cases (pe : PE) :
    (pe.lp.kind = .wfi ∧ pe.inputs.quiet = true ∧ pe.idle = false ∧
      pe.becomeIdle = { pe with idle := true }) ∨ pe.becomeIdle = pe := by
  unfold PE.becomeIdle
  split
  · rename_i h
    exact .inl ⟨h.1, h.2.1, h.2.2, rfl⟩
  · exact .inr rfl

/-- All `SignalIdle` can do. -/
theorem PE.signalIdle_cases (c : Config) (pe : PE) :
    (c.wfiPowerdown = true ∧ pe.idle = true ∧ pe.idleSignal = false ∧
      (pe.arch.controls.dlk = 0#1 ∨ pe.inputs.debugInterfaceIdle = true) ∧
      pe.signalIdle c = { pe with idleSignal := true }) ∨ pe.signalIdle c = pe := by
  unfold PE.signalIdle
  split
  · rename_i h
    exact .inl ⟨h.1, h.2.1, h.2.2.1, h.2.2.2, rfl⟩
  · exact .inr rfl

/-- All taking a pending exception can do. -/
theorem PE.takeAsync_cases (c : Config) (x : AsyncExc) (e : EL) (pe : PE) :
    (pe.mayTake c x e = true ∧
      pe.takeAsync c x e = (pe.mapArch (Arch.withdraw x)).takeException (.async x) e) ∨
    (pe.mayTake c x e = false ∧ pe.takeAsync c x e = pe) := by
  unfold PE.takeAsync
  cases h : pe.mayTake c x e <;> simp

/-- All the start of a handler can do. -/
theorem PE.handlerStep_cases (pc : Word) (m : Masks) (pe : PE) :
    (pe.handover.isSome = true ∧ pcAligned pc = true ∧ pe.handlerStep pc m = pe.enterHandler pc m) ∨
    pe.handlerStep pc m = pe := by
  unfold PE.handlerStep
  split
  · rename_i h
    rw [Bool.and_eq_true] at h
    exact .inl ⟨h.1, h.2, rfl⟩
  · exact .inr rfl

/-- All an exception return can do. -/
theorem PE.returnStep_cases (c : Config) (r : Resume) (pe : PE) :
    (pe.lp.kind = .run ∧ pcAligned r.pc = true ∧ r.el.implemented c = true ∧
      pe.returnStep c r = pe.exceptionReturn r) ∨ pe.returnStep c r = pe := by
  unfold PE.returnStep
  split
  · rename_i h
    simp only [Bool.and_eq_true, decide_eq_true_eq] at h
    exact .inl ⟨h.1.1, h.1.2, h.2, rfl⟩
  · exact .inr rfl

/-- A change of level replaces the level, and only by one that exists. -/
theorem PE.setLevel_eq (c : Config) (e : EL) (pe : PE) :
    pe.setLevel c e =
      { pe with arch := { pe.arch with el := if e.implemented c then e else pe.arch.el } } := by
  unfold PE.setLevel
  split <;> rfl

/-- The environment touches no Event Register, no pc and no general register. -/
theorem PE.environment_arch (c : Config) (a : EnvAction) (pe : PE) :
    (pe.environment c a).arch.er = pe.arch.er ∧ (pe.environment c a).arch.pc = pe.arch.pc ∧
    (pe.environment c a).arch.x = pe.arch.x := by
  cases a
  case setLevel e => simp [PE.environment, PE.setLevel_eq]
  all_goals exact ⟨rfl, rfl, rfl⟩

/-- The environment changes the Exception level by `setLevel` only, to a level that exists. -/
theorem PE.environment_el (c : Config) (a : EnvAction) (pe : PE) :
    (pe.environment c a).arch.el = pe.arch.el ∨
    ∃ e, a = .setLevel e ∧ e.implemented c = true ∧ (pe.environment c a).arch.el = e := by
  cases a
  case setLevel e =>
    cases h : e.implemented c
    · exact .inl (by simp [PE.environment, PE.setLevel_eq, h])
    · exact .inr ⟨e, rfl, h, by simp [PE.environment, PE.setLevel_eq, h]⟩
  all_goals exact .inl rfl

/-- The environment changes the mask bits by `setMasks` only. -/
theorem PE.environment_masks (c : Config) (a : EnvAction) (pe : PE) :
    (pe.environment c a).arch.masks = pe.arch.masks ∨ ∃ m, a = .setMasks m := by
  cases a
  case setMasks m => exact .inr ⟨m, rfl⟩
  case setLevel e => simp [PE.environment, PE.setLevel_eq]
  all_goals exact .inl rfl

/-- The environment changes the pending exceptions by `raise` and `withdraw` only. -/
theorem PE.environment_pend (c : Config) (a : EnvAction) (pe : PE) :
    (pe.environment c a).arch.pend = pe.arch.pend ∨ (∃ x, a = .raise x) ∨ ∃ x, a = .withdraw x := by
  cases a
  case raise x => exact .inr (.inl ⟨x, rfl⟩)
  case withdraw x => exact .inr (.inr ⟨x, rfl⟩)
  case setLevel e => simp [PE.environment, PE.setLevel_eq]
  all_goals exact .inl rfl

/-- The environment changes the control fields by `setControls` and the counter by `counter` only. -/
theorem PE.environment_controls (c : Config) (a : EnvAction) (pe : PE) :
    ((pe.environment c a).arch.controls = pe.arch.controls ∨ ∃ k, a = .setControls k) ∧
    ((pe.environment c a).arch.cntvct = pe.arch.cntvct ∨ ∃ v, a = .counter v) := by
  cases a
  case setControls k => exact ⟨.inr ⟨k, rfl⟩, .inl rfl⟩
  case counter v => exact ⟨.inl rfl, .inr ⟨v, rfl⟩⟩
  case setLevel e => simp [PE.environment, PE.setLevel_eq]
  all_goals exact ⟨.inl rfl, .inl rfl⟩

/-- The environment touches no low-power record, no idle flag and no exception that waits for the
exception model. -/
theorem PE.environment_lp (c : Config) (a : EnvAction) (pe : PE) :
    (pe.environment c a).lp = pe.lp ∧ (pe.environment c a).idle = pe.idle ∧
    (pe.environment c a).idleSignal = pe.idleSignal ∧
    (pe.environment c a).handover = pe.handover := by
  cases a
  case setLevel e => simp [PE.environment, PE.setLevel_eq]
  all_goals exact ⟨rfl, rfl, rfl, rfl⟩

end Sys2Proof.Machine
end

