-- ==== Sys2Proof/Laws/Decode.lean ====
section
/-! SUPPORT. The arithmetic of instruction words: bytes and the words they make, the mask of the
format T rows. -/

namespace Sys2Proof

/-- Appending a byte below `x` is multiplying by 256 and adding. -/
theorem append_byte_toNat {n : Nat} (x : BitVec n) (b : Byte) :
    (x ++ b).toNat = x.toNat * 256 + b.toNat := by
  rw [BitVec.toNat_append, ← Nat.shiftLeft_add_eq_or_of_lt b.isLt, Nat.shiftLeft_eq]

/-- The four bytes of a word make that word again. -/
theorem wordOfBytes_bytesOfWord (w : InsnWord) :
    wordOfBytes (w.extractLsb' 0 8) (w.extractLsb' 8 8) (w.extractLsb' 16 8) (w.extractLsb' 24 8) =
      w := by
  apply BitVec.eq_of_toNat_eq
  have hw := w.isLt
  simp only [wordOfBytes, append_byte_toNat, BitVec.extractLsb'_toNat, Nat.shiftRight_eq_div_pow]
  omega

/-- The mask of the format T rows clears the five bits of `Rt`. -/
theorem maskTimed_toNat (w : InsnWord) : (w &&& 0xFFFFFFE0#32).toNat = w.toNat / 32 * 32 := by
  have hm : w &&& 0xFFFFFFE0#32 = (w >>> 5) <<< 5 := by
    have hc : ∀ j : Fin 32, (0xFFFFFFE0#32).getLsbD j.val = decide (5 ≤ j.val) := by decide
    apply BitVec.eq_of_getLsbD_eq
    intro i hi
    rw [BitVec.getLsbD_and, hc ⟨i, hi⟩, BitVec.getLsbD_shiftLeft, BitVec.getLsbD_ushiftRight]
    by_cases h : i < 5
    · simp [h]
    · have h5 : 5 ≤ i := by omega
      simp [hi, h5, Nat.add_sub_cancel' h5]
  have hw := w.isLt
  rw [hm]
  simp only [BitVec.toNat_shiftLeft, BitVec.toNat_ushiftRight, Nat.shiftLeft_eq,
    Nat.shiftRight_eq_div_pow]
  omega

/-- The word of WFET and of WFIT, as a number. -/
theorem encode_timed_toNat (t : RegNum) :
    (encode (.wfet t)).toNat = 0xD5031000 + t.val ∧ (encode (.wfit t)).toNat = 0xD5031020 + t.val := by
  revert t
  decide

end Sys2Proof
end

