-- ==== Sys2Proof/Laws/PerInstr.lean ====
section
/-! SUPPORT. Statements made once for each instruction. -/

namespace Sys2Proof.Laws

/-- The mask and the match of an instruction's row (30_encoding.md R47). -/
def rowOf : Instr → InsnWord × InsnWord
  | .wfe    => (0xFFFFFFFF#32, 0xD503205F#32)
  | .wfi    => (0xFFFFFFFF#32, 0xD503207F#32)
  | .sev    => (0xFFFFFFFF#32, 0xD503209F#32)
  | .sevl   => (0xFFFFFFFF#32, 0xD50320BF#32)
  | .wfet _ => (0xFFFFFFE0#32, 0xD5031000#32)
  | .wfit _ => (0xFFFFFFE0#32, 0xD5031020#32)

/-- The six rows. -/
def rows : List (InsnWord × InsnWord) :=
  [rowOf .wfe, rowOf .wfi, rowOf .sev, rowOf .sevl, rowOf (.wfet 0), rowOf (.wfit 0)]

/-- The encoding of an instruction matches its own row and no other: the rows are disjoint on it. -/
def EncodingFitsRow.Statement (i : Instr) : Prop :=
  (rows.filter fun r => encode i &&& r.1 == r.2) = [rowOf i]

theorem EncodingFitsRow.wfe : EncodingFitsRow.Statement .wfe := by
  unfold EncodingFitsRow.Statement; decide

theorem EncodingFitsRow.wfi : EncodingFitsRow.Statement .wfi := by
  unfold EncodingFitsRow.Statement; decide

theorem EncodingFitsRow.sev : EncodingFitsRow.Statement .sev := by
  unfold EncodingFitsRow.Statement; decide

theorem EncodingFitsRow.sevl : EncodingFitsRow.Statement .sevl := by
  unfold EncodingFitsRow.Statement; decide

theorem EncodingFitsRow.wfet (t : RegNum) : EncodingFitsRow.Statement (.wfet t) := by
  unfold EncodingFitsRow.Statement; revert t; decide

theorem EncodingFitsRow.wfit (t : RegNum) : EncodingFitsRow.Statement (.wfit t) := by
  unfold EncodingFitsRow.Statement; revert t; decide

end Sys2Proof.Laws
end

