-- ==== Sys2Proof/Laws/Step.lean ====
section
/-! SUPPORT. One step, seen at one PE. -/

namespace Sys2Proof.Machine

/-- All an instruction can do to the PE that executes it. -/
theorem exec_at {i : Instr} {s u : State} {pe pe' : PE} (h : exec i s = .next u)
    (hp : s.acting? = some pe) (hp' : u.acting? = some pe') :
    s.Running pe ∧
    ((∃ w th, ((i = .wfe ∧ w = .wfe ∧ th = none) ∨
          (∃ r, i = .wfet r ∧ w = .wfet ∧ th = some (pe.arch.readX r) ∧ s.config.featWFxT = true)) ∧
        pe' = pe.profilingFirst s.config s.draw (PE.waitForEvent s.config s.draw w th)) ∨
     (∃ w th, ((i = .wfi ∧ w = .wfi ∧ th = none) ∨
          (∃ r, i = .wfit r ∧ w = .wfit ∧ th = some (pe.arch.readX r) ∧ s.config.featWFxT = true)) ∧
        pe' = pe.profilingFirst s.config s.draw (PE.attempt s.config s.draw w th)) ∨
     (i = .sev ∧ pe' = pe.advance s.draw) ∨
     (i = .sevl ∧ pe' = (pe.setER 1#1).advance s.draw)) := by
  obtain ⟨q, hr, hc⟩ := exec_cases h
  have hq : q = pe := Option.some.inj (hr.1.symm.trans hp)
  subst hq
  have sig : ∀ l, (s.signal l).acting? = some q := fun l => hr.1
  refine ⟨hr, ?_⟩
  rcases hc with ⟨w, th, hw, rfl⟩ | ⟨w, th, hw, rfl⟩ | ⟨hi, rfl⟩ | ⟨hi, rfl⟩
  · rw [State.setActing_acting? hr.1] at hp'
    exact .inl ⟨w, th, hw, (Option.some.inj hp').symm⟩
  · rw [State.setActing_acting? hr.1] at hp'
    exact .inr (.inl ⟨w, th, hw, (Option.some.inj hp').symm⟩)
  · rw [State.setActing_acting? (sig _)] at hp'
    exact .inr (.inr (.inl ⟨hi, (Option.some.inj hp').symm⟩))
  · rw [State.setActing_acting? (sig _)] at hp'
    exact .inr (.inr (.inr ⟨hi, (Option.some.inj hp').symm⟩))

/-- An instruction leaves the turn, the draw and the counter to the step. -/
theorem exec_keeps_choice {i : Instr} {s u : State} (h : exec i s = .next u) :
    u.turn = s.turn ∧ u.draw = s.draw ∧ u.tick = s.tick := by
  obtain ⟨pe, _, hc⟩ := exec_cases h
  rcases hc with ⟨_, _, _, rfl⟩ | ⟨_, _, _, rfl⟩ | ⟨_, rfl⟩ | ⟨_, rfl⟩ <;> exact ⟨rfl, rfl, rfl⟩

/-- An instruction replaces at most the PE that executes it. -/
theorem exec_other {i : Instr} {s u : State} {q : Nat} (h : exec i s = .next u)
    (hq : q ≠ s.turn.pe) : u.pes[q]? = s.pes[q]? := by
  obtain ⟨pe, _, hc⟩ := exec_cases h
  rcases hc with ⟨_, _, _, rfl⟩ | ⟨_, _, _, rfl⟩ | ⟨_, rfl⟩ | ⟨_, rfl⟩
  · exact State.setActing_other hq
  · exact State.setActing_other hq
  · exact State.setActing_other (s := s.signal _) hq
  · exact State.setActing_other (s := s.signal _) hq

/-- A move that is no instruction step replaces at most the acting PE. -/
theorem State.act_other {s : State} {m : Move} {q : Nat} (hq : q ≠ s.turn.pe) :
    (s.act m).pes[q]? = s.pes[q]? := by
  rcases s.act_cases m with e | ⟨_, _, _, e⟩ <;> rw [e]
  exact State.setActing_other (s := { s with inflight := _ }) hq

/-- An instruction changes no constant, no byte of memory and not how many PEs there are. -/
theorem exec_keeps {i : Instr} {s u : State} (h : exec i s = .next u) :
    u.config = s.config ∧ u.mem = s.mem ∧ u.pes.length = s.pes.length := by
  obtain ⟨pe, _, hc⟩ := exec_cases h
  rcases hc with ⟨_, _, _, rfl⟩ | ⟨_, _, _, rfl⟩ | ⟨_, rfl⟩ | ⟨_, rfl⟩ <;>
    simp [State.setActing, State.signal]

/-- A move that is no instruction step changes not how many PEs there are. -/
@[simp] theorem State.act_length (m : Move) (s : State) : (s.act m).pes.length = s.pes.length := by
  rcases s.act_cases m with e | ⟨_, _, _, e⟩ <;> rw [e]
  simp [State.setActing]

/-- All one step can do to one PE: nothing, an instruction the PE executes, or another move at it. -/
theorem step_at {s t : State} {p : Nat} {pe pe' : PE} (h : step s = .next t)
    (hp : s.pes[p]? = some pe) (hp' : t.pes[p]? = some pe') :
    pe' = pe ∨ (s.turn.pe = p ∧
      ((∃ i u, s.turn.move = .execute ∧ s.Running pe ∧ s.fetch pe = .next i ∧
          exec i s = .next u ∧ u.acting? = some pe') ∨
       (s.mayMove s.turn.move = true ∧ pe' = pe.move s.config s.draw s.turn.move))) := by
  by_cases hpe : p = s.turn.pe
  · subst hpe
    rcases step_cases h with ⟨q, i, u, hm, hr, hf, he, rfl⟩ | ⟨_, rfl⟩
    · have hq : q = pe := Option.some.inj (hr.1.symm.trans hp)
      subst hq
      refine .inr ⟨rfl, .inl ⟨i, u, hm, hr, hf, he, ?_⟩⟩
      rw [State.acting?, (exec_keeps_choice he).1]
      exact hp'
    · rcases s.act_cases s.turn.move with e | ⟨q, hq, hm, e⟩
      · rw [e] at hp'
        exact .inl (Option.some.inj (hp'.symm.trans hp))
      · have hq' : q = pe := Option.some.inj (hq.symm.trans hp)
        subst hq'
        refine .inr ⟨rfl, .inr ⟨hm, ?_⟩⟩
        rw [e] at hp'
        have hs := State.setActing_acting?
          (s := { s with inflight := inflightAfter s.turn.pe s.draw s.turn.move s.inflight })
          (pe' := q.move s.config s.draw s.turn.move) hq
        exact Option.some.inj (hp'.symm.trans hs)
  · left
    rcases step_cases h with ⟨q, i, u, _, _, _, he, rfl⟩ | ⟨_, rfl⟩
    · exact Option.some.inj (hp'.symm.trans ((exec_other he hpe).trans hp))
    · exact Option.some.inj (hp'.symm.trans ((State.act_other hpe).trans hp))

/-- A move other than an instruction step, at a PE that exists. -/
theorem step_of_acting {s : State} {pe : PE} {m : Move} (hp : s.acting? = some pe)
    (hm : s.turn.move = m) (hne : m ≠ .execute) (hmay : s.mayMove m = true) :
    step s = .next (({ s with inflight := inflightAfter s.turn.pe s.draw m s.inflight }).setActing
      (pe.move s.config s.draw m)).rollOver := by
  subst hm
  rw [step_of_move hne, State.act_of_acting hp hmay]

end Sys2Proof.Machine
end

