-- ==== Sys2Proof/Laws/Wake.lean ====
section
/-! SUPPORT. Pending and owed wakes, and the two readings of R149(a). -/

namespace Sys2Proof.Machine

/-- Where every pending exception counts, the condition is that of R69 and R105. -/
theorem PE.wakePendingFrom_all (c : Config) (pe : PE) :
    (pe.WakePendingFrom c fun _ => True) ↔
      (pe.lp.kind = .wfe ∧ pe.wfeWakePending c = true) ∨
      (pe.lp.kind = .wfi ∧ pe.wfiWakePending c = true) := by
  simp only [PE.WakePendingFrom, PE.wfeWakePending, PE.wfiWakePending, true_and, Bool.or_eq_true,
    List.any_eq_true, or_assoc]

/-- The more exceptions count, the more wakes are pending. -/
theorem PE.WakePendingFrom.mono {c : Config} {pe : PE} {q q' : AsyncExc → Prop}
    (h : ∀ x, q x → q' x) (hw : pe.WakePendingFrom c q) : pe.WakePendingFrom c q' := by
  rcases hw with ⟨k, ⟨x, hx, hq, hw⟩ | hw⟩ | ⟨k, ⟨x, hx, hq, hw⟩ | hw⟩
  · exact .inl ⟨k, .inl ⟨x, hx, h x hq, hw⟩⟩
  · exact .inl ⟨k, .inr hw⟩
  · exact .inr ⟨k, .inl ⟨x, hx, h x hq, hw⟩⟩
  · exact .inr ⟨k, .inr hw⟩

/-- A wake owed where few exceptions count is owed in the level reading. -/
theorem State.WakeOwedFrom.owed {s : State} {p : Nat} {q : AsyncExc → Prop}
    (h : s.WakeOwedFrom p q) : s.WakeOwed p := by
  obtain ⟨pe, hp, hw, hc⟩ := h
  exact ⟨pe, hp, hw.mono fun _ _ => trivial, hc⟩

/-- A wake that is owed is pending. -/
theorem State.WakeOwedFrom.pending {s : State} {p : Nat} {q : AsyncExc → Prop}
    (h : s.WakeOwedFrom p q) : s.WakePending p := by
  obtain ⟨pe, hp, hw, _⟩ := h
  exact ⟨pe, hp, hw.mono fun _ _ => trivial⟩

/-- What is promised without `WAKE_ON_ALREADY_PENDING` is promised with it. -/
theorem WakeFair.onArrival {r : Nat → State} {turn : Nat → Turn} {p : Nat} (h : WakeFair r turn p) :
    WakeFairOnArrival r turn p := fun n hn => h n fun m hm => (hn m hm).owed

/-- A threshold the counter has reached owes a wake whatever was pending before (R73). -/
theorem State.wakeOwedFrom_of_timeout {s : State} {p : Nat} {pe : PE} (q : AsyncExc → Prop)
    (hp : s.pes[p]? = some pe)
    (hk : pe.lp.kind = .wfe ∨ (pe.lp.kind = .wfi ∧ s.config.wfiCanComplete = true))
    (ht : pe.timeoutWakes s.config = true) : s.WakeOwedFrom p q := by
  refine ⟨pe, hp, ?_, fun h => ?_⟩
  · rcases hk with hk | hk
    · exact .inl ⟨hk, .inr (.inr ht)⟩
    · exact .inr ⟨hk.1, .inr (.inr (.inr ht))⟩
  · rcases hk with hk | hk
    · rw [hk] at h; cases h
    · exact hk.2

end Sys2Proof.Machine
end

