-- ==== Sys2Proof/Tests/Slice0.lean ====
section
/-! SUPPORT. Tests: expected values from spec/95_test_vectors.md or worked by hand from the rules. After
them, for every statement with hypotheses, a state that meets them all. -/

namespace Sys2Proof.Tests

open Sys2Proof.Machine

/-! ### Well-formedness: each check refuses an ill-formed term -/

/-- An implementation without FEAT_WFxT. -/
def noTimed : Config := { tableConfig with featWFxT := false }

theorem test_wellFormed_refuses_wfet : Instr.wellFormed noTimed (.wfet 3) = false := by decide
theorem test_wellFormed_refuses_wfit : Instr.wellFormed noTimed (.wfit 31) = false := by decide
theorem test_wellFormed_keeps_others :
    ([.wfe, .wfi, .sev, .sevl].all (Instr.wellFormed noTimed)) = true := by decide

/-! ### Decoding: vectors E1 to E16, words and bytes as the table of section 2.1 writes them -/

theorem test_decode_wfe : decodeBytes tableConfig [0x5F#8, 0x20#8, 0x03#8, 0xD5#8] = .ok (.wfe, []) := by rfl
theorem test_decode_wfi : decodeBytes tableConfig [0x7F#8, 0x20#8, 0x03#8, 0xD5#8] = .ok (.wfi, []) := by rfl
theorem test_decode_sev : decodeBytes tableConfig [0x9F#8, 0x20#8, 0x03#8, 0xD5#8] = .ok (.sev, []) := by rfl
theorem test_decode_sevl : decodeBytes tableConfig [0xBF#8, 0x20#8, 0x03#8, 0xD5#8] = .ok (.sevl, []) := by rfl
theorem test_decode_wfet_x0 : decode tableConfig 0b11010101000000110001000000000000#32 = .ok (.wfet 0) := by rfl
theorem test_decode_wfet_x3 : decodeBytes tableConfig [0x03#8, 0x10#8, 0x03#8, 0xD5#8] = .ok (.wfet 3, []) := by rfl
theorem test_decode_wfet_xzr : decode tableConfig 0b11010101000000110001000000011111#32 = .ok (.wfet 31) := by rfl
theorem test_decode_wfit_x0 : decode tableConfig 0b11010101000000110001000000100000#32 = .ok (.wfit 0) := by rfl
theorem test_decode_wfit_x30 : decodeBytes tableConfig [0x3E#8, 0x10#8, 0x03#8, 0xD5#8] = .ok (.wfit 30, []) := by rfl
theorem test_decode_wfit_xzr : decode tableConfig 0xD503103F#32 = .ok (.wfit 31) := by rfl
theorem test_decode_wfet_without_feature :
    decode noTimed 0xD5031000#32 = .error (.featWFxTAbsent 0xD5031000#32) := by rfl
theorem test_decode_refuses :
    [0xD503201F#32, 0xD50320DF#32, 0xD5031040#32, 0xD503215F#32, 0xD503205E#32, 0x00000000#32].map
      decodeRow = [none, none, none, none, none, none] := by rfl
theorem test_decode_truncated : decodeBytes tableConfig [0x5F#8, 0x20#8, 0x03#8] = .error .truncated := by rfl
theorem test_encode_wfet_x3 : encode (.wfet 3) = 0xD5031003#32 := by decide
theorem test_encode_wfit_x3 : encode (.wfit 3) = 0xD5031023#32 := by decide

theorem test_assembly : [Instr.sevl, .wfet 3, .wfit 31].map assembly = ["SEVL", "WFET X3", "WFIT XZR"] := by decide

/-! ### Small states -/

/-- A PE that runs at `pc` and level `el`, with Event Register `er` and the controls `k`. -/
def peAt (er : BitVec 1) (el : EL) (k : Controls) (pc : Word) : PE :=
  { PE.atReset with arch := { Arch.zero with er := er, el := el, controls := k, pc := pc } }

/-- Trap controls that trap nothing. -/
def quietControls : Controls := { Arch.zero.controls with nTWE := 1#1, nTWI := 1#1 }

/-- Trap controls of the source's example: nTWE at 0 and HCR_EL2.TWE at 1. -/
def exampleControls : Controls := { quietControls with nTWE := 0#1, hcrTWE := 1#1 }

/-- The same, with nTWE at 1 and HCR_EL2.TWI at 1 too. -/
def el2Controls : Controls := { quietControls with hcrTWE := 1#1, hcrTWI := 1#1 }

/-- PE 0 is `p` and it is its turn with move `m`; PE 1 is as after reset. -/
def machine (p : PE) (m : Move) (d : Draw := Draw.zero) : State :=
  { State.reset with pes := [p, PE.atReset], turn := { pe := 0, move := m }, draw := d }

/-- Draws in which the PE enters the low-power state. -/
def entering : Draw := { Draw.zero with enter := true }

/-- `p` with another low-power record. -/
def suspendedAs (k : LpKind) (t : Option Word) (e : Option EL) (p : PE) : PE :=
  { p with lp := { kind := k, timeout := t, trap := e } }

/-- The low-power record of a running PE. -/
def running : LowPower := { kind := .run, timeout := none, trap := none }

/-- The next state, where there is one. -/
def nextOf : Result → Option State
  | .next s => some s
  | .fault _ => none
  | .refused _ => none

/-- What a test looks at: Event Register, low-power record, pc, level of PE 0. -/
def seen (s : State) : Option (BitVec 1 × LowPower × Word × EL) :=
  s.pes[0]?.map fun p => (p.arch.er, p.lp, p.arch.pc, p.arch.el)

/-! ### One step of each instruction -/

/-- Vectors A1, A2: with the Event Register at 1 no trap is considered. -/
theorem test_wfe_clears :
    (nextOf (exec .wfe (machine (peAt 1#1 .el0 exampleControls 0x1000#64) .execute entering))).bind seen =
      some (0#1, running, 0x1004#64, .el0) := by decide

/-- Vector T1: `Trap(EL1, WFE)` only, pc at the instruction. -/
theorem test_wfe_traps_to_el1 :
    (nextOf (exec .wfe (machine (peAt 0#1 .el0 exampleControls 0x1000#64) .execute entering))).bind seen =
      some (0#1, running, 0x1000#64, .el1) := by decide

/-- Vector B2: WFET X3 with x[3] = 1000. -/
theorem test_wfet_suspends :
    (nextOf (exec (.wfet 3) (machine
        { PE.atReset with arch :=
            { (peAt 0#1 .el0 quietControls 0x1000#64).arch with
              x := (Vector.replicate 31 0#64).set 3 1000#64 } } .execute entering))).bind seen =
      some (0#1, { kind := .wfe, timeout := some 1000#64, trap := none }, 0x1000#64, .el0) := by decide

/-- Vector T9: with a delay configured WFET suspends with the trap recorded. -/
theorem test_wfet_delays_trap :
    (nextOf (exec (.wfet 31) (machine
        (peAt 0#1 .el0 { exampleControls with delayEL1 := true } 0x1000#64) .execute entering))).bind seen =
      some (0#1, { kind := .wfe, timeout := some 0#64, trap := some .el1 }, 0x1000#64, .el0) := by decide

/-- Vector F1: the Event Register does not stop a WFI and is not cleared. -/
theorem test_wfi_suspends :
    (nextOf (exec .wfi (machine (peAt 1#1 .el0 quietControls 0x4000#64) .execute entering))).bind seen =
      some (1#1, { kind := .wfi, timeout := none, trap := none }, 0x4000#64, .el0) := by decide

/-- Vector T7: a WFI at EL1 traps to EL2. -/
theorem test_wfi_traps_to_el2 :
    (nextOf (exec .wfi (machine (peAt 0#1 .el1 el2Controls 0x4000#64) .execute entering))).bind seen =
      some (0#1, running, 0x4000#64, .el2) := by decide

/-- Vector F10: WFIT XZR has threshold 0. -/
theorem test_wfit_xzr :
    (nextOf (exec (.wfit 31) (machine (peAt 0#1 .el0 quietControls 0x4000#64) .execute entering))).bind seen =
      some (0#1, { kind := .wfi, timeout := some 0#64, trap := none }, 0x4000#64, .el0) := by decide

/-- Vector F2 for WFIT: not entering completes. -/
theorem test_wfit_not_entering :
    (nextOf (exec (.wfit 0) (machine (peAt 1#1 .el0 el2Controls 0x4000#64) .execute))).bind seen =
      some (1#1, running, 0x4004#64, .el0) := by decide

/-- Vector M1: SEV with two PEs. -/
theorem test_sev_signals :
    let t := nextOf (exec .sev (machine (peAt 0#1 .el0 exampleControls 0x2000#64) .execute))
    t.map (·.inflight) = some [(0, .sev 0), (1, .sev 0)] ∧
    t.bind seen = some (0#1, running, 0x2004#64, .el0) := by decide

/-- Vector M9: SEVL without broadcast. -/
theorem test_sevl_sets :
    let t := nextOf (exec .sevl (machine (peAt 0#1 .el0 exampleControls 0x3000#64) .execute))
    t.map (·.inflight) = some [] ∧ t.bind seen = some (1#1, running, 0x3004#64, .el0) := by decide

/-- Vector M11: three PEs, SEVL broadcasts. -/
theorem test_sevl_broadcasts :
    (nextOf (exec .sevl { (machine (peAt 0#1 .el0 exampleControls 0x3000#64) .execute
        { Draw.zero with sevlBroadcast := true }) with
        pes := [peAt 0#1 .el0 exampleControls 0x3000#64, PE.atReset, PE.atReset] })).map (·.inflight) =
      some [(1, .impdef), (2, .impdef)] := by decide

/-! ### Wakeup events -/

/-- A PE whose one marking, mask bits, AllIntMask and EDSCR.INTdis are given. -/
def wakePE (x : AsyncExc) (el : EL) (dis : Bool) (mark : Mark) (mask allInt : BitVec 1) : PE :=
  { PE.atReset with
    arch := { Arch.zero with
      el := el
      masks := { a := mask, i := mask, f := mask }
      controls := { quietControls with intDis := if dis then [x] else [] } }
    inputs := { Inputs.zero with marks := [(x, mark)], allIntMask := allInt } }

/-- Whether `x` wakes a WFE and whether it wakes a WFI. -/
def wakes (x : AsyncExc) (el : EL) (dis : Bool) (mark : Mark) (mask allInt : BitVec 1) : Bool × Bool :=
  ((wakePE x el dis mark mask allInt).excWakesWFE x, (wakePE x el dis mark mask allInt).excWakesWFI x)

/-- Vectors H1 to H9, in order. -/
theorem test_physical_wakes :
    [wakes (.physical .irq false) .el0 false .a 1#1 1#1, wakes (.physical .irq false) .el0 true .a 0#1 0#1,
     wakes (.physical .fiq false) .el0 false .b 0#1 1#1, wakes (.physical .irq true) .el0 false .b 1#1 0#1,
     wakes (.physical .irq true) .el0 false .b 1#1 1#1, wakes (.physical .irq false) .el0 false .b 1#1 0#1,
     wakes (.physical .serror true) .el0 false .b 1#1 0#1, wakes (.physical .fiq false) .el0 true .b 0#1 0#1,
     wakes (.physical .irq false) .el0 false .other 0#1 0#1] =
    [(true, true), (false, true), (true, true), (true, true), (false, true), (false, true),
     (false, true), (false, true), (false, false)] := by decide

/-- Vectors Q1 to Q9, in order. -/
theorem test_virtual_wakes :
    [wakes (.virtual .irq false) .el1 false .b 0#1 1#1, wakes (.virtual .serror false) .el0 false .b 0#1 1#1,
     wakes (.virtual .irq false) .el2 false .b 0#1 0#1, wakes (.virtual .fiq false) .el3 false .b 0#1 0#1,
     wakes (.virtual .irq false) .el0 false .a 0#1 0#1, wakes (.virtual .irq false) .el0 true .b 0#1 0#1,
     wakes (.virtual .irq true) .el1 false .b 1#1 0#1, wakes (.virtual .fiq true) .el1 false .b 1#1 1#1,
     wakes (.virtual .serror true) .el1 false .b 1#1 0#1] =
    [(true, true), (true, true), (false, false), (false, false), (false, false), (false, true),
     (true, true), (false, true), (false, true)] := by decide

/-- Vectors S1 to S6, in order. -/
theorem test_delegated_wakes :
    [wakes .delegated .el2 false .a 1#1 0#1, wakes .delegated .el3 false .a 0#1 0#1,
     wakes .delegated .el1 false .b 0#1 0#1, wakes .delegated .el1 false .b 1#1 0#1,
     wakes .delegated .el0 true .a 0#1 0#1, wakes .delegated .el0 false .other 0#1 0#1] =
    [(true, true), (false, false), (true, true), (false, true), (false, true), (false, false)] := by decide

/-- R22: A holds back SError, I holds back IRQ, F holds back FIQ, each of them alone. -/
theorem test_mask_bit_of_type :
    [{ a := 1#1, i := 0#1, f := 0#1 }, { a := 0#1, i := 1#1, f := 0#1 }, { a := 0#1, i := 0#1, f := 1#1 }].map
      (fun (m : Masks) => [ExcType.serror, .irq, .fiq].map fun ty =>
        let pe := wakePE (.physical ty false) .el0 false .b 0#1 1#1
        ({ pe with arch := { pe.arch with masks := m } } : PE).excWakesWFE (.physical ty false)) =
    [[false, true, true], [true, false, true], [true, true, false]] := by decide

/-- Vectors B7 to B9 and F10: the comparison is unsigned. -/
theorem test_timeout_unsigned :
    [(0xFFFFFFFFFFFFFFFF#64, 0xFFFFFFFFFFFFFFFE#64), (0x8000000000000000#64, 0x7FFFFFFFFFFFFFFF#64),
     (1#64, 0x8000000000000000#64), (0#64, 0#64)].map (fun (e : Word × Word) =>
      PE.timeoutWakes tableConfig { PE.atReset with
        arch := { Arch.zero with cntvct := e.2 }
        lp := { kind := .wfe, timeout := some e.1, trap := none } }) =
    [false, false, true, true] := by decide

/-! ### One move of another agent -/

/-- Vector M3 with `e` = 1: delivery to a PE suspended in WFE. -/
theorem test_delivery_wakes_wfe :
    let t := nextOf (step
      { (machine (suspendedAs .wfe none none (peAt 0#1 .el0 quietControls 0x3000#64))
          (.deliver (.sev 1)) { Draw.zero with erAfterWake := 1#1 }) with
        inflight := [(1, .sev 1), (0, .sev 1)] })
    t.map (·.inflight) = some [(1, .sev 1)] ∧
    t.bind seen = some (1#1, running, 0x3004#64, .el0) := by decide

/-- Vector M4: delivery to a PE suspended in WFI. -/
theorem test_delivery_keeps_wfi :
    (nextOf (step { (machine (suspendedAs .wfi none none (peAt 0#1 .el0 quietControls 0x3000#64))
        (.deliver (.sev 1))) with inflight := [(0, .sev 1)] })).bind seen =
      some (1#1, { kind := .wfi, timeout := none, trap := none }, 0x3000#64, .el0) := by decide

/-- Vector A11: the delayed trap falls due. -/
theorem test_delayed_trap :
    (nextOf (step (machine (suspendedAs .wfe none (some .el1) (peAt 0#1 .el0 exampleControls 0x1000#64))
        .delayedTrap))).bind seen = some (0#1, running, 0x1000#64, .el1) := by decide

/-- Vector F12: where WFI can be completed, power is not removed. -/
theorem test_no_powerdown :
    (nextOf (step (machine (suspendedAs .wfi none none (peAt 0#1 .el0 quietControls 0x3000#64))
        .powerDown))).bind seen =
      some (0#1, { kind := .wfi, timeout := none, trap := none }, 0x3000#64, .el0) := by decide

/-- R6: the level of a suspended PE is an input; a level that does not exist is not taken (R23). -/
theorem test_environment_level :
    [tableConfig, { tableConfig with haveEL2 := false }].map (fun c =>
      (nextOf (step { (machine (suspendedAs .wfe none none (peAt 0#1 .el0 quietControls 0x3000#64))
          (.env (.setLevel .el2))) with config := c })).bind seen) =
    [some (0#1, { kind := .wfe, timeout := none, trap := none }, 0x3000#64, .el2),
     some (0#1, { kind := .wfe, timeout := none, trap := none }, 0x3000#64, .el0)] := by decide

/-- Each row's word, placed after reset, runs as the first instruction: pc goes on to 4 (R17; `EnterLP`
is drawn false there). -/
theorem test_first_instruction_after_reset :
    [0xD503205F, 0xD503207F, 0xD503209F, 0xD50320BF, 0xD5031000, 0xD5031020].map (fun w =>
      ((nextOf (step (State.reset.withFetchWord 32 w))).bind seen).map (·.2.2.1)) =
    [some 4#64, some 4#64, some 4#64, some 4#64, some 4#64, some 4#64] := by decide

/-! ### Witnesses: for every statement with hypotheses, a state that meets them all -/

/-- Memory with the word `w` at 0x1000. -/
def memWith (w : InsnWord) : Memory := Memory.writeBytes [] 0x1000 (bytesOfWord w)

/-- PE 0 at 0x1000 with the word `w` there, its step next. -/
def fetching (w : InsnWord) (c : Config := tableConfig) : State :=
  { (machine (peAt 0#1 .el0 quietControls 0x1000#64) .execute) with config := c, mem := memWith w }

theorem witness_DecodeOfEncodeIsIdentity :
    Instr.wellFormed tableConfig (.wfet 31) = true ∧ Instr.wellFormed noTimed .sevl = true := by decide

theorem witness_EncodeOfDecodeIsIdentity : decode tableConfig 0xD503103F#32 = .ok (.wfit 31) := by rfl

theorem witness_OtherWordsRefused :
    [0xD503201F#32, 0xD5031040#32, 0xD5030FFF#32].all (fun w =>
      decide (w ∉ [0xD503205F#32, 0xD503207F#32, 0xD503209F#32, 0xD50320BF#32] ∧
        w &&& 0xFFFFFFE0#32 ≠ 0xD5031000#32 ∧ w &&& 0xFFFFFFE0#32 ≠ 0xD5031020#32)) = true ∧
    (fetching 0xD503201F#32).turn.move = .execute ∧
    (fetching 0xD503201F#32).Running (peAt 0#1 .el0 quietControls 0x1000#64) ∧
    pcAligned 0x1000#64 = true := by decide

theorem witness_OtherWordsRefused_fetch :
    (fetching 0xD503201F#32).mem.fetchWord 0x1000 = .ok 0xD503201F#32 := by rfl

theorem witness_TimedRefusedWithoutWFxT :
    noTimed.featWFxT = false ∧ (fetching 0xD5031000#32 noTimed).config = noTimed := by decide

theorem witness_StepRunsDecodedInstruction :
    (fetching 0xD503205F#32).turn.move = .execute ∧
    (fetching 0xD503205F#32).Running (peAt 0#1 .el0 quietControls 0x1000#64) ∧
    pcAligned 0x1000#64 = true ∧ (fetching 0xD503205F#32).mem.read 0x1000 = some 0x5F#8 ∧
    (fetching 0xD503205F#32).mem.read 0x1001 = some 0x20#8 ∧
    (fetching 0xD503205F#32).mem.read 0x1002 = some 0x03#8 ∧
    (fetching 0xD503205F#32).mem.read 0x1003 = some 0xD5#8 ∧
    (0xD503205F#32).toNat = (0x5F#8).toNat + 2 ^ 8 * (0x20#8).toNat + 2 ^ 16 * (0x03#8).toNat +
      2 ^ 24 * (0xD5#8).toNat ∧
    decode (fetching 0xD503205F#32).config 0xD503205F#32 = .ok .wfe ∧
    ∃ t, exec .wfe (fetching 0xD503205F#32) = .next t :=
  ⟨rfl, by decide, by decide, rfl, rfl, rfl, rfl, by decide, rfl, _, rfl⟩

/-- Both clauses: pc one past a multiple of 4, and, for each of the four bytes from pc on, memory in which
it is the first that nothing has placed. -/
theorem witness_FetchStops :
    (machine (peAt 0#1 .el0 quietControls 0x1001#64) .execute).Running
      (peAt 0#1 .el0 quietControls 0x1001#64) ∧ pcAligned 0x1001#64 = false ∧
    pcAligned 0x1000#64 = true ∧ [0, 1, 2, 3].all (fun k =>
      let s := { (machine (peAt 0#1 .el0 quietControls 0x1000#64) .execute) with
        mem := (memWith 0xD503205F#32).take k }
      decide (s.Running (peAt 0#1 .el0 quietControls 0x1000#64) ∧ s.turn.move = .execute ∧ k < 4 ∧
        (∀ j, j < k → s.mem.read (0x1000 + j) ≠ none) ∧ s.mem.read (0x1000 + k) = none)) = true := by decide

/-- The highest pc that has a successor. -/
theorem witness_CompleteGoesOnFourBytes :
    (peAt 0#1 .el0 quietControls 0xFFFFFFFFFFFFFFF8#64).arch.pc.toNat + 4 < 2 ^ 64 := by decide

theorem witness_WaitForEventClearsAndCompletes :
    let pe := peAt 1#1 .el0 exampleControls 0x1000#64
    (machine pe .execute entering).WaitReady pe ∧ pe.arch.er = 1#1 ∧
    (machine pe .execute entering).config.featWFxT = true := by decide

theorem witness_WaitForEventNotEntering :
    let pe := peAt 0#1 .el0 exampleControls 0x1000#64
    (machine pe .execute).WaitReady pe ∧ pe.arch.er = 0#1 ∧ (machine pe .execute).draw.enter = false ∧
    (machine pe .execute).config.featWFxT = true := by decide

theorem witness_WaitForEventSuspends :
    let pe := peAt 0#1 .el0 quietControls 0x1000#64
    let s := machine pe .execute entering
    s.WaitReady pe ∧ pe.arch.er = 0#1 ∧ s.draw.enter = true ∧ s.config.featWFxT = true ∧
    pe.trapTarget s.config .wfe = none ∧ pe.trapTarget s.config .wfet = none := by decide

/-- A trap to each of the three levels. -/
theorem witness_WaitForEventTraps :
    [(EL.el0, exampleControls, EL.el1), (EL.el1, el2Controls, EL.el2),
     (EL.el2, { quietControls with scrTWE := 1#1 }, EL.el3)].all (fun e =>
      let pe := peAt 0#1 e.1 e.2.1 0x1000#64
      let s := machine pe .execute entering
      decide (s.WaitReady pe ∧ pe.arch.er = 0#1 ∧ s.draw.enter = true ∧
        pe.trapTarget s.config .wfe = some e.2.2 ∧ pe.trapDelayed s.config .wfe e.2.2 = false ∧
        pe.trapTarget s.config .wfet = some e.2.2 ∧ pe.trapDelayed s.config .wfet e.2.2 = false)) =
      true := by decide

theorem witness_WaitForEventDelaysTrap :
    let pe := peAt 0#1 .el0 { exampleControls with delayEL1 := true } 0x1000#64
    let s := machine pe .execute entering
    s.WaitReady pe ∧ pe.arch.er = 0#1 ∧ s.draw.enter = true ∧ s.config.featTWED = true ∧
    pe.arch.controls.delayAt .el1 = true ∧ pe.trapTarget s.config .wfe = some .el1 ∧
    pe.trapTarget s.config .wfet = some .el1 ∧ s.config.featWFxT = true := by decide

theorem witness_WaitForInterruptNotEntering :
    let pe := peAt 1#1 .el1 el2Controls 0x4000#64
    (machine pe .execute).WaitReady pe ∧ (machine pe .execute).draw.enter = false ∧
    (machine pe .execute).config.featWFxT = true := by decide

theorem witness_WaitForInterruptSuspends :
    let pe := peAt 1#1 .el0 quietControls 0x4000#64
    let s := machine pe .execute entering
    s.WaitReady pe ∧ s.draw.enter = true ∧ s.config.featWFxT = true ∧
    pe.trapTarget s.config .wfi = none ∧ pe.trapTarget s.config .wfit = none := by decide

theorem witness_WaitForInterruptTraps :
    let pe := peAt 1#1 .el1 el2Controls 0x4000#64
    let s := machine pe .execute entering
    s.WaitReady pe ∧ s.draw.enter = true ∧ s.config.featWFxT = true ∧
    pe.trapTarget s.config .wfi = some .el2 ∧ pe.trapTarget s.config .wfit = some .el2 := by decide

/-- A running PE with a synchronous PMU Profiling exception pending. -/
def profiled : PE :=
  { (peAt 1#1 .el0 quietControls 0x4000#64) with
    arch := { (peAt 1#1 .el0 quietControls 0x4000#64).arch with syncProfiling := true } }

theorem witness_SyncProfilingTakenFirst :
    (machine profiled .execute).Running profiled ∧
    (machine profiled .execute).config.featSEBEP = true ∧ profiled.arch.syncProfiling = true := by decide

theorem witness_WaitFrame :
    Instr.wfe ≠ .sev ∧ Instr.wfe ≠ .sevl ∧
    ∃ t, exec .wfe (machine (peAt 1#1 .el0 quietControls 0x1000#64) .execute) = .next t :=
  ⟨by decide, by decide, _, rfl⟩

theorem witness_SevSignalsEveryPE :
    let pe := peAt 0#1 .el0 quietControls 0x1000#64
    (machine pe .execute).Running pe := by decide

theorem witness_SevlSetsLocalEventRegister :
    let pe := peAt 0#1 .el0 quietControls 0x1000#64
    (machine pe .execute { Draw.zero with sevlBroadcast := true }).Running pe := by decide

/-- PE 0 about to execute an SEVL at 0x3000, with SEV at 0x3004 and WFI at 0x3008. -/
def sevlFirst : State :=
  { (machine (peAt 0#1 .el0 quietControls 0x3000#64) .execute) with
    mem := Memory.writeBytes [] 0x3004 (bytesOfWord 0xD503209F#32 ++ bytesOfWord 0xD503207F#32) }

/-- After the SEVL a physical IRQ becomes pending, then the PE's next instruction is due. -/
theorem witness_SevlThenWaitNeverSuspends :
    ∃ t u pe, exec .sevl sevlFirst = .next t ∧ t.ReachesBeforeWait 0 u ∧
      (u.withChoice { pe := 0, move := .execute } entering).WaitReady pe ∧
      pe.arch.pend = [.physical .irq false] :=
  ⟨_, _, _, rfl,
    .step (turn := { pe := 0, move := .env (.raise (.physical .irq false)) }) (draw := Draw.zero) .refl
      (fun h => by cases h.1) (by decide) rfl, ⟨⟨rfl, by decide⟩, by decide⟩, rfl⟩

/-- A turn whose fetch gives neither a WFE nor a WFET. -/
theorem not_runsWaitForEvent {s : State} {p : Nat} {i : Instr}
    (h : ∀ pe, s.acting? = some pe → s.fetch pe = .next i) (he : i ≠ .wfe) (ht : ∀ r, i ≠ .wfet r) :
    ¬ s.RunsWaitForEvent p := by
  rintro ⟨_, pe, hr, hf⟩
  rw [h pe hr.1] at hf
  rcases hf with hf | ⟨r, hf⟩
  · exact he (Host.Outcome.next.inj hf)
  · exact ht r (Host.Outcome.next.inj hf)

/-- SEVL; SEV; WFI, which suspends and wakes: the WFE or WFET after it is due at 0x300C. -/
theorem witness_SevlThenWaitNeverSuspends_between :
    ∃ t u pe, exec .sevl sevlFirst = .next t ∧ t.ReachesBeforeWait 0 u ∧
      (u.withChoice { pe := 0, move := .execute } entering).WaitReady pe ∧ pe.arch.pc = 0x300C#64 :=
  ⟨_, _, _, rfl,
    .step (turn := { pe := 0, move := .wake }) (draw := Draw.zero)
      (.step (turn := { pe := 0, move := .execute }) (draw := entering)
        (.step (turn := { pe := 0, move := .execute }) (draw := Draw.zero) .refl
          (not_runsWaitForEvent (i := .sev) (fun _ h => by cases h; rfl) (by decide) (by decide))
          (by decide) rfl)
        (not_runsWaitForEvent (i := .wfi) (fun _ h => by cases h; rfl) (by decide) (by decide))
        (by decide) rfl)
      (fun h => by cases h.1) (by decide) rfl, ⟨⟨rfl, by decide⟩, by decide⟩, rfl⟩

theorem witness_SevThenWfeMaySuspend :
    let pe := peAt 0#1 .el0 quietControls 0x2000#64
    (machine pe .execute).WaitReady pe ∧ pe.arch.er = 0#1 ∧
    pe.trapTarget (machine pe .execute).config .wfe = none ∧ entering.enter = true := by decide

theorem witness_TrapTakenIsTheLowest :
    ∃ t pe' h, exec .wfe (machine (peAt 0#1 .el0 exampleControls 0x1000#64) .execute entering) = .next t ∧
      t.acting? = some pe' ∧ pe'.handover = some h ∧ h.cause = .trap .wfe :=
  ⟨_, _, _, rfl, rfl, rfl, rfl⟩

/-- Controls with the trap bits of one level at the value that traps. -/
def trapsAt (el : EL) : Controls :=
  let b (e : EL) : BitVec 1 := if e = el then 1#1 else 0#1
  { quietControls with
    nTWE := ~~~b .el1, nTWI := ~~~b .el1, hcrTWE := b .el2, hcrTWI := b .el2
    scrTWE := b .el3, scrTWI := b .el3 }

/-- One state for every row of R112 and every level it traps. -/
theorem witness_NamedControlsTrap :
    [(EL.el0, EL.el1), (.el0, .el2), (.el1, .el2), (.el0, .el3), (.el1, .el3), (.el2, .el3)].all (fun e =>
      let pe := peAt 0#1 e.1 (trapsAt e.2) 0x1000#64
      let s := machine pe .execute entering
      let k := pe.arch.controls
      decide (s.WaitReady pe ∧ s.draw.enter = true ∧ s.config.featWFxT = true ∧ pe.arch.er = 0#1 ∧
        s.config.haveEL2 = true ∧ s.config.haveEL3 = true ∧
        (e.2 = .el1 → k.nTWE = 0#1 ∧ k.nTWI = 0#1) ∧
        (e.2 ≠ .el1 → k.nTWE = 1#1 ∧ k.nTWI = 1#1) ∧
        (e.2 = .el2 → k.hcrTWE = 1#1 ∧ k.hcrTWI = 1#1) ∧
        (e.2 = .el3 → k.hcrTWE = 0#1 ∧ k.hcrTWI = 0#1 ∧ k.scrTWE = 1#1 ∧ k.scrTWI = 1#1))) = true := by
  decide

theorem witness_DelayDoesNotAffectPriority_decided :
    ∃ t pe', exec .wfe (machine (peAt 0#1 .el0 { exampleControls with delayEL1 := true } 0x1000#64)
        .execute entering) = .next t ∧ t.acting? = some pe' ∧ pe'.lp.trap = some .el1 :=
  ⟨_, _, rfl, rfl, rfl⟩

/-- A PE suspended in WFE at EL0 with a trap to EL1 delayed. -/
def trapDue : PE := suspendedAs .wfe none (some .el1) (peAt 0#1 .el0 exampleControls 0x1000#64)

theorem witness_DelayDoesNotAffectPriority_due :
    (machine trapDue .delayedTrap).acting? = some trapDue ∧
    (machine trapDue .delayedTrap).turn.move = .delayedTrap ∧
    trapDue.lp.kind = .wfe ∧ trapDue.lp.trap = some .el1 := by decide

/-- The same for a WFET. -/
theorem witness_DelayedTrapStepTaken :
    let pe := suspendedAs .wfe (some 1000#64) (some .el2) (peAt 0#1 .el0 el2Controls 0x1000#64)
    (machine pe .delayedTrap).acting? = some pe ∧ (machine pe .delayedTrap).turn.move = .delayedTrap ∧
    pe.lp.kind = .wfe ∧ pe.lp.trap = some .el2 := by decide

theorem witness_NoTrapAtHighestLevel :
    let pe := peAt 0#1 .el1 el2Controls 0x1000#64
    let s := { (machine pe .execute entering) with
      config := { tableConfig with haveEL2 := false, haveEL3 := false } }
    s.WaitReady pe ∧ s.draw.enter = true ∧ pe.arch.er = 0#1 ∧ s.config.featWFxT = true ∧
    ∀ e ∈ [EL.el0, EL.el1, EL.el2, EL.el3],
      e.implemented s.config = true → e.rank ≤ pe.arch.el.rank := by decide

/-- A PE of each kind, with an event for it in flight. -/
theorem witness_DeliveryByKind :
    [LpKind.wfe, LpKind.run, LpKind.wfi, LpKind.off].all (fun k =>
      let pe := suspendedAs k none none (peAt 0#1 .el0 quietControls 0x3000#64)
      let s : State := { (machine pe (.deliver .stream)) with inflight := [(0, .stream)] }
      decide (s.acting? = some pe ∧ s.turn.move = .deliver .stream ∧
        (s.turn.pe, Cause.stream) ∈ s.inflight ∧ pe.lp.kind = k)) = true := by decide

theorem witness_WakeStepAlwaysEnabled :
    [LpKind.wfe, LpKind.wfi].all (fun k =>
      let pe := suspendedAs k none none (peAt 0#1 .el0 quietControls 0x3000#64)
      decide ((machine pe .wake).acting? = some pe ∧ (machine pe .wake).turn.move = .wake ∧
        (pe.lp.kind = .wfe ∨ pe.lp.kind = .wfi))) = true := by decide

theorem witness_SuspendedPEExecutesNothing :
    [LpKind.wfe, LpKind.wfi, LpKind.off].all (fun k =>
      let pe := suspendedAs k none none (peAt 0#1 .el0 quietControls 0x3000#64)
      decide ((machine pe .execute).acting? = some pe ∧ (machine pe .execute).turn.move = .execute ∧
        pe.lp.kind ≠ .run)) = true := by decide

/-- A PE at EL1 that trapped and waits for the exception model. -/
def waiting : PE :=
  { (peAt 0#1 .el1 exampleControls 0x1000#64) with
    handover := some { cause := .trap .wfe, target := .el1, returnAddr := 0x1000#64 } }

/-- An instruction turn, a handler that starts, one at a misaligned pc, and one nothing waits for. -/
theorem witness_SuspendedPEExecutesNothing_waiting :
    let m : Masks := { a := 1#1, i := 1#1, f := 1#1 }
    let idle := peAt 0#1 .el1 exampleControls 0x1000#64
    (machine waiting .execute).acting? = some waiting ∧ waiting.lp.kind = .run ∧
    waiting.handover.isSome = true ∧
    [0x8000#64, 0x8002#64].map pcAligned = [true, false] ∧
    [0x8000#64, 0x8002#64].all (fun pc => decide ((machine waiting (.enterHandler pc m)).acting? = some waiting ∧
      (machine waiting (.enterHandler pc m)).turn.move = .enterHandler pc m)) = true ∧
    (machine idle (.enterHandler 0x8000#64 m)).acting? = some idle ∧ idle.handover = none := by decide

/-- A system on which WFI cannot be completed. -/
def noWfi : Config := { tableConfig with wfiCanComplete := false }

/-- PE 0 of kind `k` on such a system. -/
def ofKind (k : LpKind) (m : Move) : State :=
  { (machine (suspendedAs k none none (peAt 0#1 .el0 quietControls 0x3000#64)) m) with config := noWfi }

/-- WFE left by a wake, WFI by a loss of power, OFF by a reset. -/
theorem witness_SuspensionLeftOnlyByListedSteps :
    (∃ t pe', step (ofKind .wfe .wake) = .next t ∧ t.pes[0]? = some pe' ∧ pe'.lp.kind = .run) ∧
    (∃ t pe', step (ofKind .wfi .powerDown) = .next t ∧ t.pes[0]? = some pe' ∧ pe'.lp.kind = .off) ∧
    (∃ t pe', step (ofKind .off .reset) = .next t ∧ t.pes[0]? = some pe' ∧ pe'.lp.kind = .run) :=
  ⟨⟨_, _, rfl, rfl, rfl⟩, ⟨_, _, rfl, rfl, rfl⟩, ⟨_, _, rfl, rfl, rfl⟩⟩

theorem witness_WfeWakersAreWfiWakers :
    PE.wfeWakePending tableConfig
      { (wakePE (.physical .irq false) .el0 false .a 1#1 1#1) with
        arch := { (wakePE (.physical .irq false) .el0 false .a 1#1 1#1).arch with
          pend := [.physical .irq false] } } = true := by decide

/-- A running PE with `x` pending. -/
def pendingPE (x : AsyncExc) (dis : Bool) (mark : Mark) (mask allInt : BitVec 1) : PE :=
  { (wakePE x .el0 dis mark mask allInt) with
    arch := { (wakePE x .el0 dis mark mask allInt).arch with pend := [x] } }

/-- Two PEs that differ in mask bits, AllIntMask and EDSCR.INTdis only. -/
theorem witness_WfiWakeIgnoresMasking :
    let pe := pendingPE (.physical .irq false) true .b 1#1 1#1
    let pe' := pendingPE (.physical .irq false) false .b 0#1 0#1
    (∀ x, x ∈ pe'.arch.pend ↔ x ∈ pe.arch.pend) ∧ pe'.arch.el = pe.arch.el ∧
    (∀ x, pe'.markOf x = pe.markOf x) ∧ pe'.inputs.haltingAllowed = pe.inputs.haltingAllowed ∧
    pe'.arch.edbgrq = pe.arch.edbgrq ∧ pe'.inputs.impDefEvent = pe.inputs.impDefEvent ∧
    pe'.lp.timeout = pe.lp.timeout ∧ pe'.arch.cntvct = pe.arch.cntvct ∧ pe' ≠ pe :=
  ⟨fun _ => Iff.rfl, rfl, fun _ => rfl, rfl, rfl, rfl, rfl, rfl, by decide⟩

/-- Disabled by EDSCR.INTdis, and marked B with its mask bit 1. -/
theorem witness_MaskedInterruptNotTaken :
    [pendingPE (.physical .irq false) true .a 0#1 1#1,
     pendingPE (.physical .irq false) false .b 1#1 0#1].all (fun pe =>
      let s := machine pe (.takeAsync (.physical .irq false) .el1)
      decide (s.acting? = some pe ∧ s.turn.move = .takeAsync (.physical .irq false) .el1 ∧
        (.physical .irq false ∈ pe.arch.controls.intDis ∨
          (pe.markOf (.physical .irq false) = .b ∧ pe.maskBit (.physical .irq false) = 1#1 ∧
            pe.superpriorityApplies (.physical .irq false) = false)))) = true := by decide

/-- Marked A, marked B with its mask bit 0, and marked B with Superpriority. -/
theorem witness_PendingExceptionTaken :
    [(pendingPE (.physical .irq true) false .a 1#1 1#1), (pendingPE (.physical .irq true) false .b 0#1 1#1),
     (pendingPE (.physical .irq true) false .b 1#1 0#1)].all (fun pe =>
      let s := machine pe (.takeAsync (.physical .irq true) .el3)
      decide (s.Running pe ∧ s.turn.move = .takeAsync (.physical .irq true) .el3 ∧
        .physical .irq true ∈ pe.arch.pend ∧ .physical .irq true ∉ pe.arch.controls.intDis ∧
        (pe.markOf (.physical .irq true) ≠ .b ∨ pe.maskBit (.physical .irq true) = 0#1 ∨
          pe.superpriorityApplies (.physical .irq true) = true) ∧
        EL.el3.implemented s.config = true)) = true := by decide

/-- PE 0 with the Event Register at 1 and a WFE at its pc. -/
def aboutToClear : State :=
  { (machine (peAt 1#1 .el0 quietControls 0x1000#64) .execute) with mem := memWith 0xD503205F#32 }

theorem witness_EventRegisterClearedOnlyByWait :
    aboutToClear.Inv ∧ ∃ t pe pe', step aboutToClear = .next t ∧ aboutToClear.pes[0]? = some pe ∧
      t.pes[0]? = some pe' ∧ pe.arch.er = 1#1 ∧ pe'.arch.er = 0#1 :=
  ⟨by decide, _, _, _, rfl, rfl, rfl, rfl, rfl⟩

theorem witness_EventRegisterSetOnlyByCauses :
    ∃ t pe pe', step (fetching 0xD50320BF#32) = .next t ∧ (fetching 0xD50320BF#32).pes[0]? = some pe ∧
      t.pes[0]? = some pe' ∧ pe.arch.er = 0#1 ∧ pe'.arch.er = 1#1 :=
  ⟨_, _, _, rfl, rfl, rfl, rfl, rfl⟩

theorem witness_EventSourcesPutInFlight :
    [EnvAction.monitorCleared, .streamEvent, .impDefEvent].all (fun a =>
      decide ((machine trapDue (.env a)).acting? = some trapDue ∧
        (machine trapDue (.env a)).turn.move = .env a)) = true := by decide

/-- A return to the WFE at 0x1000, at EL0. -/
def backToWfe : Resume :=
  { pc := 0x1000#64, el := .el0, masks := { a := 0#1, i := 0#1, f := 0#1 }, x := Vector.replicate 31 0#64 }

theorem witness_ExceptionReturnSetsEventRegister :
    let pe := peAt 0#1 .el1 exampleControls 0x8000#64
    let s := machine pe (.exceptionReturn backToWfe)
    s.acting? = some pe ∧ s.turn.move = .exceptionReturn backToWfe ∧ pe.lp.kind = .run ∧
    pcAligned backToWfe.pc = true ∧ backToWfe.el.implemented s.config = true := by decide

/-- A WFE and a WFET, trapped at once. -/
theorem witness_TrappedWaitReturnedToCompletes :
    let s := machine (peAt 0#1 .el0 exampleControls 0x1000#64) .execute entering
    s.Inv ∧ (∃ pe, s.acting? = some pe) ∧ backToWfe.el.implemented s.config = true ∧
    (∃ t pe' h u, exec .wfe s = .next t ∧ t.pes[s.turn.pe]? = some pe' ∧ pe'.handover = some h ∧
      h.cause = .trap .wfe ∧ backToWfe.pc = h.returnAddr ∧
      step (t.withChoice { pe := s.turn.pe, move := .exceptionReturn backToWfe } Draw.zero) = .next u) ∧
    ∃ t pe' h u, exec (.wfet 3) s = .next t ∧ t.pes[s.turn.pe]? = some pe' ∧ pe'.handover = some h ∧
      h.cause = .trap .wfet ∧ backToWfe.pc = h.returnAddr ∧
      step (t.withChoice { pe := s.turn.pe, move := .exceptionReturn backToWfe } Draw.zero) = .next u :=
  ⟨by decide, ⟨_, rfl⟩, by decide, ⟨_, _, _, _, rfl, rfl, rfl, rfl, rfl, rfl⟩,
    _, _, _, _, rfl, rfl, rfl, rfl, rfl, rfl⟩

/-- A WFE trapped after a delay. -/
theorem witness_TrappedWaitReturnedToCompletes_delayed :
    let s := machine trapDue .delayedTrap
    s.Inv ∧ s.acting? = some trapDue ∧ s.turn.move = .delayedTrap ∧ trapDue.handover = none ∧
    trapDue.arch.syncProfiling = false ∧
    ∃ t pe' h u, step s = .next t ∧ t.pes[s.turn.pe]? = some pe' ∧ pe'.handover = some h ∧
      h.cause = .trap .wfe ∧ backToWfe.pc = h.returnAddr ∧
      step (t.withChoice { pe := s.turn.pe, move := .exceptionReturn backToWfe } Draw.zero) = .next u :=
  ⟨by decide, rfl, rfl, rfl, rfl, _, _, _, _, rfl, rfl, rfl, rfl, rfl, rfl⟩

theorem witness_CaptureServedInPlace :
    (machine trapDue .serviceCapture).acting? = some trapDue ∧
    (machine trapDue .serviceCapture).turn.move = .serviceCapture := by decide

/-- A PE suspended in WFI, its operations complete, idle or not, with OSDLR_EL1.DLK at `dlk`. -/
def idlePE (idle : Bool) (dlk : BitVec 1) (debugIdle : Bool) : PE :=
  { (suspendedAs .wfi none none (peAt 0#1 .el0 { quietControls with dlk := dlk } 0x4000#64)) with
    idle := idle
    inputs := { Inputs.zero with quiet := true, debugInterfaceIdle := debugIdle } }

/-- Becoming idle, signalling with DLK 0, and signalling with DLK 1 and the debug interface idle. -/
theorem witness_IdleSteps :
    (machine (idlePE false 0#1 false) .becomeIdle).acting? = some (idlePE false 0#1 false) ∧
    (idlePE false 0#1 false).lp.kind = .wfi ∧ (idlePE false 0#1 false).inputs.quiet = true ∧
    (idlePE false 0#1 false).idle = false ∧
    [idlePE true 0#1 false, idlePE true 1#1 true].all (fun pe =>
      let s := machine pe .signalIdle
      decide (s.acting? = some pe ∧ s.config.wfiPowerdown = true ∧ pe.idle = true ∧
        pe.idleSignal = false ∧
        (pe.arch.controls.dlk = 0#1 ∨ pe.inputs.debugInterfaceIdle = true))) = true := by decide

theorem witness_IdleSignalGuard :
    ∃ t pe pe', step (machine (idlePE true 1#1 true) .signalIdle) = .next t ∧
      (machine (idlePE true 1#1 true) .signalIdle).pes[0]? = some pe ∧ t.pes[0]? = some pe' ∧
      pe.idleSignal = false ∧ pe'.idleSignal = true ∧ pe.arch.controls.dlk = 1#1 :=
  ⟨_, _, _, rfl, rfl, rfl, rfl, rfl, rfl⟩

/-- Suspended in WFI where it cannot be completed, in WFI where it can, and in WFE. -/
theorem witness_PowerDownOnlyFromWfi :
    (∃ pe, (ofKind .wfi .powerDown).acting? = some pe ∧ pe.lp.kind = .wfi) ∧
    (ofKind .wfi .powerDown).config.wfiCanComplete = false ∧
    (∃ pe, (machine (idlePE true 0#1 false) .powerDown).acting? = some pe ∧ pe.lp.kind = .wfi) ∧
    (machine (idlePE true 0#1 false) .powerDown).config.wfiCanComplete = true ∧
    (∃ pe, (ofKind .wfe .powerDown).acting? = some pe ∧ pe.lp.kind ≠ .wfi) :=
  ⟨⟨_, rfl, rfl⟩, rfl, ⟨_, rfl, rfl⟩, rfl, ⟨_, rfl, by decide⟩⟩

theorem witness_ResetStepLeaves :
    ∃ pe, (ofKind .off .reset).acting? = some pe ∧ (ofKind .off .reset).turn.move = .reset :=
  ⟨_, rfl, rfl⟩

theorem witness_ResetEventRegisterUnknown : ∃ pe, State.reset.pes[1]? = some pe := ⟨_, rfl⟩

theorem witness_StepKeepsInvariant :
    (fetching 0xD503209F#32).Inv ∧ ∃ t, step (fetching 0xD503209F#32) = .next t :=
  ⟨by decide, _, rfl⟩

theorem witness_StepLeavesOtherPEsAlone :
    (1 : Nat) ≠ (fetching 0xD503209F#32).turn.pe ∧ ∃ t, step (fetching 0xD503209F#32) = .next t :=
  ⟨by decide, _, rfl⟩

theorem witness_StepKeepsMemoryAndConstants : ∃ t, step (fetching 0xD503209F#32) = .next t := ⟨_, rfl⟩

/-- A return that restores x0 to 7, other masks and EL1; the counter, the controls, the level and the
pending exceptions moved by the environment; a trap; masks set by a handler; an interrupt taken. -/
theorem witness_BorrowedStateWrittenOnlyBy :
    (∃ t pe pe', step (machine (peAt 0#1 .el0 quietControls 0x1000#64)
        (.exceptionReturn
          { backToWfe with
            el := .el1, masks := { a := 1#1, i := 0#1, f := 0#1 }
            x := (Vector.replicate 31 0#64).set 0 7#64 })) = .next t ∧
      pe = peAt 0#1 .el0 quietControls 0x1000#64 ∧ t.pes[0]? = some pe' ∧
      pe'.arch.x ≠ pe.arch.x ∧ pe'.arch.masks ≠ pe.arch.masks ∧ pe'.arch.el ≠ pe.arch.el) ∧
    (∃ t pe', step (machine trapDue (.env (.counter 1#64))) = .next t ∧ t.pes[0]? = some pe' ∧
      pe'.arch.cntvct ≠ trapDue.arch.cntvct) ∧
    (∃ t pe', step (machine trapDue .delayedTrap) = .next t ∧ t.pes[0]? = some pe' ∧
      pe'.arch.el ≠ trapDue.arch.el) ∧
    (∃ t pe', step (machine trapDue (.env (.setControls quietControls))) = .next t ∧
      t.pes[0]? = some pe' ∧ pe'.arch.controls ≠ trapDue.arch.controls) ∧
    (∃ t pe', step (machine trapDue (.env (.setLevel .el3))) = .next t ∧ t.pes[0]? = some pe' ∧
      pe'.arch.el ≠ trapDue.arch.el) ∧
    (∃ t pe', step (machine trapDue (.env (.raise .delegated))) = .next t ∧ t.pes[0]? = some pe' ∧
      pe'.arch.pend ≠ trapDue.arch.pend) ∧
    (∃ t pe', step (machine waiting (.enterHandler 0x8000#64 { a := 1#1, i := 1#1, f := 1#1 })) = .next t ∧
      t.pes[0]? = some pe' ∧ pe'.arch.masks ≠ waiting.arch.masks) ∧
    (∃ t pe', step (machine (pendingPE .delegated false .a 1#1 1#1) (.takeAsync .delegated .el2)) = .next t ∧
      t.pes[0]? = some pe' ∧ pe'.arch.pend ≠ (pendingPE .delegated false .a 1#1 1#1).arch.pend) ∧
    (∃ t pe', step (machine trapDue (.env (.debugRequest true))) = .next t ∧ t.pes[0]? = some pe' ∧
      pe'.arch.edbgrq ≠ trapDue.arch.edbgrq) ∧
    (∃ t pe', step (machine trapDue (.env .captureEvent)) = .next t ∧ t.pes[0]? = some pe' ∧
      pe'.arch.capture ≠ trapDue.arch.capture) ∧
    (∃ t pe', step (machine trapDue (.env (.setProfiling true))) = .next t ∧ t.pes[0]? = some pe' ∧
      pe'.arch.profiling ≠ trapDue.arch.profiling) ∧
    (∃ t pe', step (machine trapDue (.env (.setSyncProfiling true))) = .next t ∧ t.pes[0]? = some pe' ∧
      pe'.arch.syncProfiling ≠ trapDue.arch.syncProfiling) ∧
    (∃ t pe', step (machine trapDue (.env (.setInputs { Inputs.zero with quiet := true }))) = .next t ∧
      t.pes[0]? = some pe' ∧ pe'.inputs ≠ trapDue.inputs) :=
  ⟨⟨_, _, _, rfl, rfl, rfl, by decide, by decide, by decide⟩, ⟨_, _, rfl, rfl, by decide⟩,
    ⟨_, _, rfl, rfl, by decide⟩, ⟨_, _, rfl, rfl, by decide⟩, ⟨_, _, rfl, rfl, by decide⟩,
    ⟨_, _, rfl, rfl, by decide⟩, ⟨_, _, rfl, rfl, by decide⟩, ⟨_, _, rfl, rfl, by decide⟩,
    ⟨_, _, rfl, rfl, by decide⟩, ⟨_, _, rfl, rfl, by decide⟩, ⟨_, _, rfl, rfl, by decide⟩,
    ⟨_, _, rfl, rfl, by decide⟩, ⟨_, _, rfl, rfl, by decide⟩⟩

/-! ### Infinite runs -/

/-- The run from `s` in which the agents make the moves `turn`. -/
def runFrom (s : State) (turn : Nat → Turn) : Nat → State
  | 0 => s
  | n + 1 => (((runFrom s turn n).withChoice (turn n) Draw.zero).act (turn n).move).rollOver

/-- Where no move is an instruction step, that is a run. -/
theorem isRun_runFrom (s : State) (turn : Nat → Turn) (h : ∀ n, (turn n).move ≠ .execute) :
    IsRun (runFrom s turn) turn (fun _ => Draw.zero) := fun n => step_of_move (h n)

/-- A wake step puts nothing in flight and takes nothing out. -/
theorem wake_inflight (s : State) : (s.act .wake).inflight = s.inflight := by
  rcases s.act_cases .wake with e | ⟨_, _, _, e⟩ <;> rw [e]
  rfl

/-- First the event is delivered, then the PE is offered wake steps for ever. -/
def deliverThenWake : Nat → Turn
  | 0 => { pe := 0, move := .deliver .stream }
  | _ + 1 => { pe := 0, move := .wake }

/-- PE 0 suspended in WFE with an event of the event stream in flight to it. -/
def eventComing : State :=
  { (ofKind .wfe .wake) with inflight := [(0, .stream)] }

theorem deliverThenWake_inflight (n : Nat) : (runFrom eventComing deliverThenWake (n + 1)).inflight = [] := by
  induction n with
  | zero => rfl
  | succ n ih => exact (wake_inflight _).trans ih

theorem witness_EventInFlightEndsWait :
    IsRun (runFrom eventComing deliverThenWake) deliverThenWake (fun _ => Draw.zero) ∧
    EventDeliveryFair (runFrom eventComing deliverThenWake) deliverThenWake ∧
    (∃ pe, (runFrom eventComing deliverThenWake 0).pes[0]? = some pe ∧ pe.lp.kind = .wfe) ∧
    (0, Cause.stream) ∈ (runFrom eventComing deliverThenWake 0).inflight := by
  refine ⟨isRun_runFrom _ _ (fun n => by cases n <;> simp [deliverThenWake]), ?_, ⟨_, rfl, rfl⟩, by decide⟩
  intro n p c h
  cases n with
  | zero =>
    have he : (p, c) = (0, Cause.stream) := List.mem_singleton.mp h
    cases he
    exact ⟨0, Nat.le_refl 0, .inl rfl⟩
  | succ n =>
    rw [deliverThenWake_inflight] at h
    cases h

/-- First the counter goes past the threshold, then the PE is offered wake steps for ever. -/
def countThenWake : Nat → Turn
  | 0 => { pe := 0, move := .env (.counter 0xFFFFFFFFFFFFFFFF#64) }
  | _ + 1 => { pe := 0, move := .wake }

/-- PE 0 suspended in WFET (`k` is `.wfe`) or WFIT (`.wfi`) with threshold 1000 and the counter at 0. -/
def timed (k : LpKind) : State :=
  machine (suspendedAs k (some 1000#64) none (peAt 0#1 .el0 quietControls 0x5000#64)) .wake

/-- From the first step on the counter stands at its highest value. -/
theorem countThenWake_counter (k : LpKind) (n : Nat) :
    ∃ pe, (runFrom (timed k) countThenWake (n + 1)).pes[0]? = some pe ∧
      pe.arch.cntvct = 0xFFFFFFFFFFFFFFFF#64 := by
  induction n with
  | zero => exact ⟨_, rfl, rfl⟩
  | succ n ih =>
    obtain ⟨pe, hp, hc⟩ := ih
    let u := (runFrom (timed k) countThenWake (n + 1)).withChoice { pe := 0, move := .wake } Draw.zero
    have ha : u.acting? = some pe := hp
    have e : u.act .wake = _ := State.act_of_acting ha rfl
    refine ⟨pe.wakeStep Draw.zero, ?_, ?_⟩
    · show (u.act .wake).pes[0]? = _
      rw [e]
      exact State.setActing_acting? ha
    · rcases PE.wakeStep_cases Draw.zero pe with ⟨_, e⟩ | ⟨_, e⟩ <;> rw [e] <;> exact hc

theorem countThenWake_counterOf (k : LpKind) (n : Nat) :
    (runFrom (timed k) countThenWake (n + 1)).counterOf 0 = 2 ^ 64 - 1 := by
  obtain ⟨pe, hp, hc⟩ := countThenWake_counter k n
  simp only [State.counterOf, hp, hc]
  decide

/-- The premises of `TimeoutEndsWait` for PE 0 in the run that starts from `timed k`. -/
def TimeoutPremises (k : LpKind) : Prop :=
    IsRun (runFrom (timed k) countThenWake) countThenWake (fun _ => Draw.zero) ∧
    WakeFairOnArrival (runFrom (timed k) countThenWake) countThenWake 0 ∧
    CounterProgress (runFrom (timed k) countThenWake) 0 ∧
    CounterNeverDecreases (runFrom (timed k) countThenWake) 0 ∧
    (runFrom (timed k) countThenWake 0).config.featWFxT = true ∧
    ∃ pe, (runFrom (timed k) countThenWake 0).pes[0]? = some pe ∧
      (pe.lp.kind = .wfe ∨
        (pe.lp.kind = .wfi ∧ (runFrom (timed k) countThenWake 0).config.wfiCanComplete = true)) ∧
      pe.lp.timeout = some 1000#64

theorem timed_meets_premises (k : LpKind) (hk : k = .wfe ∨ k = .wfi) : TimeoutPremises k := by
  refine ⟨isRun_runFrom _ _ (fun n => by cases n <;> simp [countThenWake]), ?_, ?_, ?_, rfl, _, rfl,
    hk.imp id fun h => ⟨h, rfl⟩, rfl⟩
  · exact fun n _ => ⟨n + 1, Nat.le_succ n, rfl⟩
  · intro v n
    refine ⟨n + 1, Nat.le_succ n, ?_⟩
    rw [countThenWake_counterOf]
    have := v.isLt
    omega
  · intro n
    rw [countThenWake_counterOf]
    cases n with
    | zero => exact Nat.zero_le _
    | succ n => exact Nat.le_of_eq (countThenWake_counterOf k n)

/-- A WFET, and a WFIT on a system that can complete it. -/
theorem witness_TimeoutEndsWait : TimeoutPremises .wfe ∧ TimeoutPremises .wfi :=
  ⟨timed_meets_premises .wfe (.inl rfl), timed_meets_premises .wfi (.inr rfl)⟩

/-! ### What R105 and R150 call owed, and a deadlock -/

/-- With `WFI_CAN_COMPLETE` false a wakeup event pending for a WFI is a wake that nothing guarantees. -/
theorem test_no_wake_owed_to_uncompletable_wfi :
    let pe := suspendedAs .wfi none none (pendingPE (.physical .irq false) false .a 0#1 0#1)
    ({ machine pe .wake with config := noWfi } : State).WakePending 0 ∧
    ¬ ({ machine pe .wake with config := noWfi } : State).WakeOwed 0 ∧ (machine pe .wake).WakeOwed 0 := by
  intro pe
  have hw : pe.WakePendingFrom tableConfig fun _ => True :=
    (PE.wakePendingFrom_all _ _).mpr (.inr (by decide))
  exact ⟨⟨_, rfl, hw⟩, fun ⟨q, hq, _, hc⟩ => by cases hq; exact absurd (hc rfl) (by decide),
    ⟨_, rfl, hw, fun _ => rfl⟩⟩

/-- PE 0 suspended in WFE with an IRQ pending, its mask bit 0 at moment 1 and after, 1 before. -/
def unmaskedLater (n : Nat) : State :=
  machine (suspendedAs .wfe none none
    (pendingPE (.physical .irq false) false .b (if n = 0 then 1#1 else 0#1) 1#1)) .wake

/-- An IRQ pending before the suspension and unmasked during it: owed with `WAKE_ON_ALREADY_PENDING`,
promised by nothing without it (R149(d), D9). -/
theorem test_already_pending_not_on_arrival :
    (unmaskedLater 1).WakeOwed 0 ∧ ¬ (unmaskedLater 0).WakeOwed 0 ∧
    ¬ (unmaskedLater 1).WakeOwedFrom 0 (ArrivedSuspended unmaskedLater 0 1) := by
  refine ⟨⟨_, rfl, (PE.wakePendingFrom_all _ _).mpr (.inl (by decide)), fun _ => rfl⟩, ?_, ?_⟩
  · rintro ⟨q, hq, hw, -⟩
    cases hq
    exact absurd ((PE.wakePendingFrom_all _ _).mp hw) (by decide)
  · rintro ⟨q, hq, hw, -⟩
    cases hq
    rcases hw with ⟨-, ⟨x, hx, ⟨k, -, -, q, hq, hn⟩, -⟩ | hw⟩ | ⟨hk, -⟩
    · cases hq
      exact hn hx
    · exact absurd hw (by decide)
    · cases hk

/-- Two PEs in WFI with the event of an SEV in flight to PE 0: it wakes neither (R106). -/
theorem test_event_does_not_resolve_wfi_deadlock :
    let pe := suspendedAs .wfi none none (peAt 0#1 .el0 quietControls 0x3000#64)
    ({ machine pe .wake with pes := [pe, pe], inflight := [(0, .sev 1)] } : State).Deadlocked := by
  refine ⟨by decide, ?_, ?_⟩
  · rintro (_ | _ | p) ⟨q, hq, h⟩ <;> cases hq <;> revert h <;> rw [PE.wakePendingFrom_all] <;> decide
  · rintro ⟨p, c, q, hc, hq, h⟩
    cases List.mem_singleton.mp hc
    cases hq
    cases h

end Sys2Proof.Tests
end

/-! When a pending delegated SError wakes a WFE (40_wait_for_event.md R65). -/

namespace Sys2Proof.Proofs

open Sys2Proof.Machine

/-! ### What R65 reads: the exception level, EDSCR.INTdis, the mask bit -/

theorem seesDelegated_iff {e : EL} :
    e.seesDelegated = true ↔ e = .el2 ∨ e = .el1 ∨ e = .el0 := by
  cases e <;> simp [EL.seesDelegated]

theorem not_intDisabled_iff {pe : PE} {x : AsyncExc} :
    (!pe.intDisabled x) = true ↔ x ∉ pe.arch.controls.intDis := by
  simp [PE.intDisabled]

/-! ### The predicate, by the class of the exception -/

theorem delegWakesWFE_physical (pe : PE) (ty : ExcType) (sp : Bool) :
    pe.delegWakesWFE (.physical ty sp) = false := rfl

theorem delegWakesWFE_virtual (pe : PE) (ty : ExcType) (sp : Bool) :
    pe.delegWakesWFE (.virtual ty sp) = false := rfl

/-- Delegated SErrors: the mask bit is A alone, and it matters under marking B only. -/
theorem delegWakesWFE_delegated_iff {pe : PE} :
    pe.delegWakesWFE .delegated = true ↔
      (pe.arch.el = .el2 ∨ pe.arch.el = .el1 ∨ pe.arch.el = .el0) ∧
        .delegated ∉ pe.arch.controls.intDis ∧
        (pe.markOf .delegated = .a ∨ (pe.markOf .delegated = .b ∧ pe.arch.masks.a = 0#1)) := by
  simp only [PE.delegWakesWFE, Bool.and_eq_true, Bool.or_eq_true, decide_eq_true_eq,
    seesDelegated_iff, not_intDisabled_iff, and_assoc]

/-- Settles O36, by the class of the exception. -/
theorem delegatedWakesWfe : Obligations.DelegatedWakesWfe := by
  intro pe x
  cases x with
  | physical ty sp => simp [delegWakesWFE_physical]
  | virtual ty sp => simp [delegWakesWFE_virtual]
  | delegated => simpa using delegWakesWFE_delegated_iff

end Sys2Proof.Proofs

/-! When a pending physical, virtual or delegated exception wakes a WFI
(42_wait_for_interrupt.md R99 to R101). -/

namespace Sys2Proof.Proofs

open Sys2Proof.Machine

theorem seesVirtual_iff {e : EL} : e.seesVirtual = true ↔ e = .el1 ∨ e = .el0 := by
  cases e <;> simp [EL.seesVirtual]

/-! ### The three predicates, by the class of the exception -/

theorem physWakesWFI_iff {pe : PE} {x : AsyncExc} :
    pe.physWakesWFI x = true ↔
      (∃ ty sp, x = .physical ty sp) ∧ (pe.markOf x = .a ∨ pe.markOf x = .b) := by
  cases x with
  | physical ty sp => simp [PE.physWakesWFI]
  | virtual ty sp => simp [PE.physWakesWFI]
  | delegated => simp [PE.physWakesWFI]

/-- Marking A does not make a virtual exception a wakeup event. -/
theorem virtWakesWFI_iff {pe : PE} {x : AsyncExc} :
    pe.virtWakesWFI x = true ↔
      (∃ ty sp, x = .virtual ty sp) ∧ (pe.arch.el = .el1 ∨ pe.arch.el = .el0) ∧
        pe.markOf x = .b := by
  cases x with
  | physical ty sp => simp [PE.virtWakesWFI]
  | virtual ty sp => simp [PE.virtWakesWFI, seesVirtual_iff]
  | delegated => simp [PE.virtWakesWFI]

theorem delegWakesWFI_iff {pe : PE} {x : AsyncExc} :
    pe.delegWakesWFI x = true ↔
      x = .delegated ∧ (pe.arch.el = .el2 ∨ pe.arch.el = .el1 ∨ pe.arch.el = .el0) ∧
        (pe.markOf x = .a ∨ pe.markOf x = .b) := by
  cases x with
  | physical ty sp => simp [PE.delegWakesWFI]
  | virtual ty sp => simp [PE.delegWakesWFI]
  | delegated => simp [PE.delegWakesWFI, seesDelegated_iff]

/-- Settles O37, one predicate at a time. -/
theorem exceptionsWakeWfi : Obligations.ExceptionsWakeWfi :=
  fun _ _ => ⟨physWakesWFI_iff, virtWakesWFI_iff, delegWakesWFI_iff⟩

end Sys2Proof.Proofs

/-! The decoder and the encoder are inverse to each other (30_encoding.md R43 to R50). -/

namespace Sys2Proof.Proofs

open Sys2Proof.Machine

/-! ### The fields of a word, as numbers -/

theorem fieldFixed_toNat (w : InsnWord) : (fieldFixed w).toNat = w.toNat / 2 ^ 12 := by
  have hw := w.isLt
  simp only [fieldFixed, BitVec.extractLsb'_toNat, Nat.shiftRight_eq_div_pow]
  omega

theorem fieldCRm_toNat (w : InsnWord) : (fieldCRm w).toNat = w.toNat / 2 ^ 8 % 2 ^ 4 := by
  simp only [fieldCRm, BitVec.extractLsb'_toNat, Nat.shiftRight_eq_div_pow]

theorem fieldOp2_toNat (w : InsnWord) : (fieldOp2 w).toNat = w.toNat / 2 ^ 5 % 2 ^ 3 := by
  simp only [fieldOp2, BitVec.extractLsb'_toNat, Nat.shiftRight_eq_div_pow]

theorem fieldRt_toNat (w : InsnWord) : (fieldRt w).toNat = w.toNat % 2 ^ 5 := by
  simp only [fieldRt, BitVec.extractLsb'_toNat, Nat.shiftRight_eq_div_pow, pow_zero, Nat.div_one]

/-- A word is its four fields side by side. -/
theorem word_toNat_of_fields {w : InsnWord} {f : BitVec 20} {op2 : BitVec 3} {rt : BitVec 5}
    (hf : fieldFixed w = f) (hc : fieldCRm w = 0#4) (ho : fieldOp2 w = op2) (hr : fieldRt w = rt) :
    w.toNat = f.toNat * 2 ^ 12 + op2.toNat * 2 ^ 5 + rt.toNat := by
  have h1 := fieldFixed_toNat w
  have h2 := fieldCRm_toNat w
  have h3 := fieldOp2_toNat w
  have h4 := fieldRt_toNat w
  rw [hf] at h1
  rw [hc, BitVec.toNat_ofNat] at h2
  rw [ho] at h3
  rw [hr] at h4
  omega

/-! ### Each instruction has one word -/

theorem decodeHint_eq_some {op2 : BitVec 3} {i : Instr} (h : decodeHint op2 = some i) :
    (encode i).toNat = 0xD5032 * 2 ^ 12 + op2.toNat * 2 ^ 5 + 31 := by
  unfold decodeHint at h
  split_ifs at h <;> cases h <;> subst op2 <;> rfl

theorem decodeTimed_eq_some {op2 : BitVec 3} {rt : BitVec 5} {i : Instr}
    (h : decodeTimed op2 rt = some i) :
    (encode i).toNat = 0xD5031 * 2 ^ 12 + op2.toNat * 2 ^ 5 + rt.toNat := by
  unfold decodeTimed at h
  split_ifs at h <;> cases h <;> subst op2
  · exact (encode_timed_toNat _).1
  · exact (encode_timed_toNat _).2

theorem encode_of_decodeRow {w : InsnWord} {i : Instr} (h : decodeRow w = some i) :
    encode i = w := by
  unfold decodeRow at h
  apply BitVec.eq_of_toNat_eq
  split_ifs at h with hc hf hr hf'
  · rw [decodeHint_eq_some h, word_toNat_of_fields hf (not_not.mp hc) rfl hr]
    rfl
  · rw [decodeTimed_eq_some h, word_toNat_of_fields hf' (not_not.mp hc) rfl rfl]
    rfl

theorem decodeRow_encode (i : Instr) : decodeRow (encode i) = some i := by
  cases i with
  | wfe => rfl
  | wfi => rfl
  | sev => rfl
  | sevl => rfl
  | wfet t => revert t; decide
  | wfit t => revert t; decide

theorem decodeRow_eq_some_iff {w : InsnWord} {i : Instr} : decodeRow w = some i ↔ encode i = w :=
  ⟨encode_of_decodeRow, fun h => h ▸ decodeRow_encode i⟩

theorem decode_eq_ok_iff {c : Config} {w : InsnWord} {i : Instr} :
    decode c w = .ok i ↔ encode i = w ∧ i.wellFormed c = true := by
  rw [← decodeRow_eq_some_iff]
  unfold decode
  cases hrow : decodeRow w with
  | none => simp
  | some j =>
    by_cases hwf : j.wellFormed c = true
    · simp only [hwf, if_true, Except.ok.injEq, Option.some.injEq]
      exact ⟨fun h => ⟨h, h ▸ hwf⟩, And.left⟩
    · simp only [hwf, if_false, reduceCtorEq, Option.some.injEq, false_iff]
      rintro ⟨rfl, h⟩
      exact hwf h

theorem decode_of_no_row {c : Config} {w : InsnWord} (h : ∀ i, encode i ≠ w) :
    decode c w = .error (.notOfThisSpec w) := by
  have hrow : decodeRow w = none :=
    Option.eq_none_iff_forall_ne_some.mpr fun i hi => h i (encode_of_decodeRow hi)
  simp [decode, hrow]

/-- Settles O2: the four bytes make the word again, and the word has the one row. -/
theorem decodeOfEncodeIsIdentity : Obligations.DecodeOfEncodeIsIdentity := by
  intro c i rest hwf
  have hd : decode c (encode i) = .ok i := decode_eq_ok_iff.mpr ⟨rfl, hwf⟩
  simp only [encodeBytes, bytesOfWord, List.cons_append, List.nil_append, decodeBytes,
    wordOfBytes_bytesOfWord, hd]

/-- Settles O3. -/
theorem encodeOfDecodeIsIdentity : Obligations.EncodeOfDecodeIsIdentity :=
  fun _ _ _ h => decode_eq_ok_iff.mp h

/-! ### Masks -/

theorem and_allOnes_eq_iff {w m : InsnWord} : w &&& 0xFFFFFFFF#32 = m ↔ m = w := by
  rw [show (0xFFFFFFFF#32) = BitVec.allOnes 32 from rfl, BitVec.and_allOnes, eq_comm]

/-- The format T mask leaves bits 31:5; with bits 4:0 they give the word. -/
theorem maskTimed_eq_iff {w m : InsnWord} :
    w &&& 0xFFFFFFE0#32 = m ↔ w.toNat / 32 * 32 = m.toNat := by
  rw [← BitVec.toNat_inj, maskTimed_toNat]

theorem encode_wfet_eq_iff {t : RegNum} {w : InsnWord} :
    encode (.wfet t) = w ↔ w &&& 0xFFFFFFE0#32 = 0xD5031000#32 ∧ t.val = w.toNat % 32 := by
  have ht := t.isLt
  rw [← BitVec.toNat_inj, (encode_timed_toNat t).1, maskTimed_eq_iff, BitVec.toNat_ofNat]
  omega

theorem encode_wfit_eq_iff {t : RegNum} {w : InsnWord} :
    encode (.wfit t) = w ↔ w &&& 0xFFFFFFE0#32 = 0xD5031020#32 ∧ t.val = w.toNat % 32 := by
  have ht := t.isLt
  rw [← BitVec.toNat_inj, (encode_timed_toNat t).2, maskTimed_eq_iff, BitVec.toNat_ofNat]
  omega

/-- Settles O4: a row is selected by the word of the row. -/
theorem decodeFollowsMaskAndMatch : Obligations.DecodeFollowsMaskAndMatch := by
  intro c w
  have hint : ∀ i, i.wellFormed c = true → (decode c w = .ok i ↔ w &&& 0xFFFFFFFF#32 = encode i) :=
    fun i hi => by rw [decode_eq_ok_iff, and_allOnes_eq_iff, and_iff_left hi]
  refine ⟨hint .wfe rfl, hint .wfi rfl, hint .sev rfl, hint .sevl rfl, fun t => ?_, fun t => ?_⟩
  · rw [decode_eq_ok_iff, encode_wfet_eq_iff, and_comm]
    rfl
  · rw [decode_eq_ok_iff, encode_wfit_eq_iff, and_comm]
    rfl

/-! ### Words that are refused -/

theorem encode_ne_of_no_match {w : InsnWord}
    (hh : w ∉ [0xD503205F#32, 0xD503207F#32, 0xD503209F#32, 0xD50320BF#32])
    (he : w &&& 0xFFFFFFE0#32 ≠ 0xD5031000#32) (hi : w &&& 0xFFFFFFE0#32 ≠ 0xD5031020#32)
    (i : Instr) : encode i ≠ w := by
  simp only [List.mem_cons, List.not_mem_nil, or_false, not_or] at hh
  obtain ⟨hwfe, hwfi, hsev, hsevl⟩ := hh
  cases i with
  | wfe => exact Ne.symm hwfe
  | wfi => exact Ne.symm hwfi
  | sev => exact Ne.symm hsev
  | sevl => exact Ne.symm hsevl
  | wfet t => exact fun h => he (encode_wfet_eq_iff.mp h).1
  | wfit t => exact fun h => hi (encode_wfit_eq_iff.mp h).1

/-- What the fetch answers at an aligned pc, from the word there. -/
theorem fetch_of_word {s : State} {pe : PE} {w : InsnWord} (ha : pcAligned pe.arch.pc = true)
    (hw : s.mem.fetchWord pe.arch.pc.toNat = .ok w) :
    (∀ i, decode s.config w = .ok i → s.fetch pe = .next i) ∧
    (∀ e, decode s.config w = .error e → s.fetch pe = .refused (refusalOf e)) :=
  ⟨fun i hi => by simp [State.fetch, ha, hw, hi], fun e he => by simp [State.fetch, ha, hw, he]⟩

/-- An instruction step of a running PE stops where the fetch stops. -/
theorem step_of_fetch_stops {s : State} {pe : PE} (hm : s.turn.move = .execute) (hr : s.Running pe) :
    (∀ f, s.fetch pe = .fault f → step s = .fault f) ∧
    (∀ r, s.fetch pe = .refused r → step s = .refused r) := by
  have hx := State.executingPE?_eq_some.mpr ⟨hm, hr⟩
  exact ⟨fun f hf => by simp [step, hx, hf], fun r hf => by simp [step, hx, hf]⟩

/-- Settles O5. -/
theorem otherWordsRefused : Obligations.OtherWordsRefused := by
  intro s pe w hm hr ha hw hh he hi
  have hd : decode s.config w = .error (.notOfThisSpec w) :=
    decode_of_no_row (encode_ne_of_no_match hh he hi)
  exact (step_of_fetch_stops hm hr).2 _ ((fetch_of_word ha hw).2 _ hd)

theorem decode_encode_of_not_wellFormed {c : Config} {i : Instr} (h : i.wellFormed c = false) :
    decode c (encode i) = .error (.featWFxTAbsent (encode i)) := by
  simp [decode, decodeRow_encode, h]

/-- Settles O6. -/
theorem timedRefusedWithoutWFxT : Obligations.TimedRefusedWithoutWFxT := by
  rintro _ s t hf rfl
  exact ⟨decode_encode_of_not_wellFormed hf, decode_encode_of_not_wellFormed hf,
    by simp [exec, execWfet, hf], by simp [exec, execWfit, hf]⟩

/-- Settles O1: each word of a row is the encoding of its instruction. -/
theorem specWordsDecode : Obligations.SpecWordsDecode := by
  have row : ∀ i : Instr, decode tableConfig (encode i) = .ok i := fun i =>
    decode_eq_ok_iff.mpr ⟨rfl, by cases i <;> rfl⟩
  refine ⟨row .wfe, row .wfi, row .sev, row .sevl, row (.wfet 3), row (.wfit 30), ?_, ?_, ?_, ?_, ?_⟩
  all_goals rfl

end Sys2Proof.Proofs

/-! All that an instruction and any other move can do to the acting PE, as two inductive predicates. The
model's `exec_at` and the laws of the moves tie them to the model; every statement about a step is then a
case analysis. -/

namespace Sys2Proof.Proofs

open Sys2Proof.Machine

/-! ### Instructions -/

/-- `i` is the waiting instruction `w`, which on `pe` has the threshold `th`. -/
inductive Waits (c : Config) (pe : PE) : Instr → WFx → Option Word → Prop
  | wfe : Waits c pe .wfe .wfe none
  | wfet (r : RegNum) (hf : c.featWFxT = true) :
      Waits c pe (.wfet r) .wfet (some (pe.arch.readX r))
  | wfi : Waits c pe .wfi .wfi none
  | wfit (r : RegNum) (hf : c.featWFxT = true) :
      Waits c pe (.wfit r) .wfit (some (pe.arch.readX r))

theorem Waits.feature {c : Config} {pe : PE} {i : Instr} {w : WFx} {th : Option Word}
    (h : Waits c pe i w th) (ht : th.isSome = true) : c.featWFxT = true := by
  cases h with
  | wfe => cases ht
  | wfet r hf => exact hf
  | wfi => cases ht
  | wfit r hf => exact hf

/-- The waiting instructions with the Event Register are WFE and WFET. -/
theorem Waits.instr_of_event {c : Config} {pe : PE} {i : Instr} {w : WFx} {th : Option Word}
    (h : Waits c pe i w th) (hw : w.isEvent = true) : i = .wfe ∨ ∃ r, i = .wfet r := by
  cases h with
  | wfe => exact .inl rfl
  | wfet r hf => exact .inr ⟨r, rfl⟩
  | wfi => cases hw
  | wfit r hf => cases hw

/-- What a waiting instruction attempts: no profiling exception comes first, and the Event Register of
a WFE or WFET is 0. -/
structure Attempts (c : Config) (pe : PE) (i : Instr) (w : WFx) (th : Option Word) : Prop where
  waits : Waits c pe i w th
  ready : c.featSEBEP = true → pe.arch.syncProfiling = false
  er_clear : w.isEvent = true → pe.arch.er = 0#1

/-- What instruction `i` can make of the PE `pe` that executes it. -/
inductive ExecOutcome (c : Config) (d : Draw) (pe : PE) : Instr → PE → Prop
  | profiling {i : Instr} {w : WFx} {th : Option Word} (hw : Waits c pe i w th)
      (hc : c.featSEBEP = true) (hp : pe.arch.syncProfiling = true) :
      ExecOutcome c d pe i (pe.takeSyncProfiling c d)
  | clears {i : Instr} {w : WFx} {th : Option Word} (hw : Waits c pe i w th)
      (hev : w.isEvent = true) (her : pe.arch.er = 1#1) :
      ExecOutcome c d pe i ((pe.setER 0#1).complete d)
  | completes {i : Instr} {w : WFx} {th : Option Word} (ha : Attempts c pe i w th) :
      ExecOutcome c d pe i (pe.complete d)
  | suspends {i : Instr} {w : WFx} {th : Option Word} (ha : Attempts c pe i w th)
      (ht : pe.trapTarget c w = none) : ExecOutcome c d pe i (pe.suspend w.kind th none)
  | delays {i : Instr} {w : WFx} {th : Option Word} {el : EL} (ha : Attempts c pe i w th)
      (ht : pe.trapTarget c w = some el) (hd : pe.trapDelayed c w el = true) :
      ExecOutcome c d pe i (pe.suspend w.kind th (some el))
  | traps {i : Instr} {w : WFx} {th : Option Word} {el : EL} (ha : Attempts c pe i w th)
      (ht : pe.trapTarget c w = some el) : ExecOutcome c d pe i (pe.takeException (.trap w) el)
  | sev : ExecOutcome c d pe .sev (pe.advance d)
  | sevl : ExecOutcome c d pe .sevl ((pe.setER 1#1).advance d)

theorem ExecOutcome.of_attempt {c : Config} {pe : PE} {i : Instr} {w : WFx} {th : Option Word}
    (d : Draw) (ha : Attempts c pe i w th) : ExecOutcome c d pe i (pe.attempt c d w th) := by
  rcases pe.attempt_cases c d w th with ⟨-, e⟩ | ⟨-, ht, e⟩ | ⟨el, -, ht, hd, e⟩ | ⟨el, -, ht, -, e⟩ <;>
    rw [e]
  · exact .completes ha
  · exact .suspends ha ht
  · exact .delays ha ht hd
  · exact .traps ha ht

/-- A WFE or WFET reads the Event Register first. -/
theorem ExecOutcome.of_waitForEvent {c : Config} {pe : PE} {i : Instr} {w : WFx} {th : Option Word}
    (d : Draw) (hw : Waits c pe i w th) (hev : w.isEvent = true) :
    ExecOutcome c d pe i (pe.profilingFirst c d (PE.waitForEvent c d w th)) := by
  rcases pe.profilingFirst_cases c d (PE.waitForEvent c d w th) with ⟨hc, hp, e⟩ | ⟨hready, e⟩ <;> rw [e]
  · exact .profiling hw hc hp
  · rcases pe.waitForEvent_cases c d w th with ⟨her, e⟩ | ⟨her, e⟩ <;> rw [e]
    · exact .clears hw hev her
    · exact .of_attempt d ⟨hw, hready, fun _ => her⟩

/-- A WFI or WFIT does not. -/
theorem ExecOutcome.of_waitForInterrupt {c : Config} {pe : PE} {i : Instr} {w : WFx} {th : Option Word}
    (d : Draw) (hw : Waits c pe i w th) (hev : w.isEvent = false) :
    ExecOutcome c d pe i (pe.profilingFirst c d (PE.attempt c d w th)) := by
  rcases pe.profilingFirst_cases c d (PE.attempt c d w th) with ⟨hc, hp, e⟩ | ⟨hready, e⟩ <;> rw [e]
  · exact .profiling hw hc hp
  · exact .of_attempt d ⟨hw, hready, fun h => absurd h (by simp [hev])⟩

/-- An instruction that gives a next state makes of the acting PE one of its outcomes. -/
theorem exec_outcome {i : Instr} {s u : State} {pe pe' : PE} (h : exec i s = .next u)
    (hp : s.acting? = some pe) (hp' : u.acting? = some pe') :
    s.Running pe ∧ ExecOutcome s.config s.draw pe i pe' := by
  obtain ⟨hr, hc⟩ := exec_at h hp hp'
  refine ⟨hr, ?_⟩
  rcases hc with ⟨w, th, hi, rfl⟩ | ⟨w, th, hi, rfl⟩ | ⟨rfl, rfl⟩ | ⟨rfl, rfl⟩
  · rcases hi with ⟨rfl, rfl, rfl⟩ | ⟨r, rfl, rfl, rfl, hf⟩
    · exact .of_waitForEvent _ .wfe rfl
    · exact .of_waitForEvent _ (.wfet r hf) rfl
  · rcases hi with ⟨rfl, rfl, rfl⟩ | ⟨r, rfl, rfl, rfl, hf⟩
    · exact .of_waitForInterrupt _ .wfi rfl
    · exact .of_waitForInterrupt _ (.wfit r hf) rfl
  · exact .sev
  · exact .sevl

/-! ### Other moves -/

/-- What a move that is no instruction step can make of the PE `pe` it acts on. -/
inductive MoveOutcome (c : Config) (d : Draw) (pe : PE) : Move → PE → Prop
  | nothing (m : Move) : MoveOutcome c d pe m pe
  | wakenByEvent (e : Cause) (hk : pe.lp.kind = .wfe) :
      MoveOutcome c d pe (.deliver e) ((pe.complete d).setER d.erAfterWake)
  | hearsEvent (e : Cause) (hk : pe.lp.kind = .run ∨ pe.lp.kind = .wfi) :
      MoveOutcome c d pe (.deliver e) (pe.setER 1#1)
  | wakes (hk : pe.lp.kind = .wfe ∨ pe.lp.kind = .wfi) : MoveOutcome c d pe .wake (pe.complete d)
  | delayedTrap (el : EL) (hk : pe.lp.kind = .wfe) (ht : pe.lp.trap = some el) :
      MoveOutcome c d pe .delayedTrap (pe.takeException (.trap pe.lp.suspendedEvent) el)
  | becomesIdle (hk : pe.lp.kind = .wfi) : MoveOutcome c d pe .becomeIdle { pe with idle := true }
  | signalsIdle (hc : c.wfiPowerdown = true) (hi : pe.idle = true)
      (hd : pe.arch.controls.dlk = 0#1 ∨ pe.inputs.debugInterfaceIdle = true) :
      MoveOutcome c d pe .signalIdle { pe with idleSignal := true }
  | servesCapture : MoveOutcome c d pe .serviceCapture pe.serviceCapture
  | losesPower (hk : pe.lp.kind = .wfi) (hc : c.wfiCanComplete = false) :
      MoveOutcome c d pe .powerDown
        { pe with
          arch := { d.unknown with el := d.unknown.el.legal c }
          lp := { kind := .off, timeout := none, trap := none }
          idle := false
          idleSignal := false
          handover := none }
  | resets : MoveOutcome c d pe .reset (pe.resetStep c d)
  | environment (a : EnvAction) : MoveOutcome c d pe (.env a) (pe.environment c a)
  | takesAsync (x : AsyncExc) (el : EL) (hm : pe.mayTake c x el = true) :
      MoveOutcome c d pe (.takeAsync x el) ((pe.mapArch (Arch.withdraw x)).takeException (.async x) el)
  | startsHandler (pc : Word) (m : Masks) (hh : pe.handover.isSome = true) (ha : pcAligned pc = true) :
      MoveOutcome c d pe (.enterHandler pc m) (pe.enterHandler pc m)
  | returns (r : Resume) (hk : pe.lp.kind = .run) (ha : pcAligned r.pc = true)
      (hl : r.el.implemented c = true) :
      MoveOutcome c d pe (.exceptionReturn r) (pe.exceptionReturn r)

/-- A move makes of the acting PE one of its outcomes. -/
theorem move_outcome (c : Config) (d : Draw) (m : Move) (pe : PE) :
    MoveOutcome c d pe m (pe.move c d m) := by
  cases m with
  | execute => exact .nothing _
  | deliver e =>
    rcases pe.receive_cases d with ⟨hk, h⟩ | ⟨hk, h⟩ | ⟨-, h⟩ <;> rw [PE.move, h]
    · exact .wakenByEvent e hk
    · exact .hearsEvent e hk
    · exact .nothing _
  | wake =>
    rcases pe.wakeStep_cases d with ⟨hk, h⟩ | ⟨-, h⟩ <;> rw [PE.move, h]
    · exact .wakes hk
    · exact .nothing _
  | delayedTrap =>
    rcases pe.delayedTrapStep_cases with ⟨el, hk, ht, h⟩ | h <;> rw [PE.move, h]
    · exact .delayedTrap el hk ht
    · exact .nothing _
  | becomeIdle =>
    rcases pe.becomeIdle_cases with ⟨hk, -, -, h⟩ | h <;> rw [PE.move, h]
    · exact .becomesIdle hk
    · exact .nothing _
  | signalIdle =>
    rcases pe.signalIdle_cases c with ⟨hc, hi, -, hd, h⟩ | h <;> rw [PE.move, h]
    · exact .signalsIdle hc hi hd
    · exact .nothing _
  | serviceCapture => exact .servesCapture
  | powerDown =>
    rcases pe.powerDown_cases c d with ⟨hk, hc, h⟩ | h <;> rw [PE.move, h]
    · exact .losesPower hk hc
    · exact .nothing _
  | reset => exact .resets
  | env a => exact .environment a
  | takeAsync x el =>
    rcases pe.takeAsync_cases c x el with ⟨hm, h⟩ | ⟨-, h⟩ <;> rw [PE.move, h]
    · exact .takesAsync x el hm
    · exact .nothing _
  | enterHandler pc m =>
    rcases pe.handlerStep_cases pc m with ⟨hh, ha, h⟩ | h <;> rw [PE.move, h]
    · exact .startsHandler pc m hh ha
    · exact .nothing _
  | exceptionReturn r =>
    rcases pe.returnStep_cases c r with ⟨hk, ha, hl, h⟩ | h <;> rw [PE.move, h]
    · exact .returns r hk ha hl
    · exact .nothing _

/-! ### Steps -/

/-- All one step can do to one PE: leave it, or at its turn one of the outcomes of an instruction it
executes or of another move. -/
theorem step_outcome {s t : State} {p : Nat} {pe pe' : PE} (h : step s = .next t)
    (hp : s.pes[p]? = some pe) (hp' : t.pes[p]? = some pe') :
    pe' = pe ∨ (s.turn.pe = p ∧
      ((∃ i, s.turn.move = .execute ∧ s.Running pe ∧ s.fetch pe = .next i ∧
          ExecOutcome s.config s.draw pe i pe') ∨
       (s.mayMove s.turn.move = true ∧ MoveOutcome s.config s.draw pe s.turn.move pe'))) := by
  rcases step_at h hp hp' with e | ⟨rfl, ⟨i, u, hm, hr, hf, he, hu⟩ | ⟨hm, rfl⟩⟩
  · exact .inl e
  · exact .inr ⟨rfl, .inl ⟨i, hm, hr, hf, (exec_outcome he hr.1 hu).2⟩⟩
  · exact .inr ⟨rfl, .inr ⟨hm, move_outcome _ _ _ _⟩⟩

/-- A PE that executes runs and waits for nothing. -/
theorem kind_of_running {s : State} {pe : PE} (h : s.Running pe) : pe.lp.kind = .run :=
  (PE.executing_iff.mp h.2).1

theorem handover_of_running {s : State} {pe : PE} (h : s.Running pe) : pe.handover = none :=
  (PE.executing_iff.mp h.2).2

theorem mayTake_iff {c : Config} {pe : PE} {x : AsyncExc} {el : EL} :
    pe.mayTake c x el = true ↔ pe.executing = true ∧ x ∈ pe.arch.pend ∧ pe.intDisabled x = false ∧
      pe.heldByMask x = false ∧ el.implemented c = true := by
  simp [PE.mayTake, and_assoc]

/-- Neither an instruction nor any other move writes memory or a constant. -/
theorem step_keeps {s t : State} (h : step s = .next t) :
    t.mem = s.mem ∧ t.config = s.config ∧ t.pes.length = s.pes.length := by
  rcases step_cases h with ⟨_, _, _, _, _, _, he, rfl⟩ | ⟨_, rfl⟩
  · obtain ⟨hc, hm, hl⟩ := exec_keeps he
    exact ⟨hm, hc, hl⟩
  · simp

theorem step_config {s t : State} (h : step s = .next t) : t.config = s.config := by
  obtain ⟨-, hc, -⟩ := step_keeps h
  exact hc

/-- A PE that exists before a step exists after it, and conversely. -/
theorem step_getElem? {s t : State} {p : Nat} (h : step s = .next t) :
    (∃ pe, s.pes[p]? = some pe) ↔ ∃ pe', t.pes[p]? = some pe' := by
  obtain ⟨-, -, hl⟩ := step_keeps h
  simp [List.getElem?_eq_some_iff, hl]

/-- Settles O57. -/
theorem stepKeepsMemoryAndConstants : Obligations.StepKeepsMemoryAndConstants := by
  intro s t h
  obtain ⟨hm, hc, hl⟩ := step_keeps h
  exact ⟨fun a => by rw [hm], hm, hc, hl⟩

/-- Settles O56. -/
theorem stepLeavesOtherPEsAlone : Obligations.StepLeavesOtherPEsAlone := by
  intro s t q h hq
  rcases step_cases h with ⟨_, _, _, _, _, _, he, rfl⟩ | ⟨_, rfl⟩
  · rw [State.rollOver_pes]
    exact exec_other he hq
  · exact State.act_other hq

end Sys2Proof.Proofs

/-! The invariant of the machine: every outcome of an instruction or a move keeps it at the acting PE
(10_state.md R29), and no event is put in flight for a PE that does not exist (R19). -/

namespace Sys2Proof.Proofs

open Sys2Proof.Machine

/-- What `State.Inv` asks of one PE. -/
structure MeetsInv (c : Config) (pe : PE) : Prop where
  lowPower : pe.LowPowerInv c
  shape : pe.ShapeInv c

theorem MeetsInv.el_implemented {c : Config} {pe : PE} (h : MeetsInv c pe) :
    pe.arch.el.implemented c = true := by
  obtain ⟨-, hel, -⟩ := h
  exact hel

theorem MeetsInv.pc_aligned {c : Config} {pe : PE} (h : MeetsInv c pe) (hk : pe.lp.kind ≠ .off) :
    pcAligned pe.arch.pc = true := by
  obtain ⟨-, -, hpc, -⟩ := h
  exact hpc hk

theorem MeetsInv.trap_implemented {c : Config} {pe : PE} {el : EL} (h : MeetsInv c pe)
    (ht : pe.lp.trap = some el) : el.implemented c = true := by
  obtain ⟨-, -, -, -, htr⟩ := h
  exact htr el ht

theorem MeetsInv.er_of_wfe {c : Config} {pe : PE} (h : MeetsInv c pe) (hk : pe.lp.kind = .wfe) :
    pe.arch.er = 0#1 := by
  obtain ⟨⟨-, -, her, -⟩, -⟩ := h
  exact her hk

theorem MeetsInv.timeout_feature {c : Config} {pe : PE} (h : MeetsInv c pe)
    (ht : pe.lp.timeout.isSome = true) : c.featWFxT = true := by
  obtain ⟨⟨hth, -⟩, -⟩ := h
  exact (hth ht).2

/-! ### The operations on one PE -/

theorem MeetsInv.setER {c : Config} {pe : PE} (h : MeetsInv c pe) (v : BitVec 1)
    (hk : pe.lp.kind = .wfe → v = 0#1) : MeetsInv c (pe.setER v) := by
  obtain ⟨⟨hth, htr, -, hs, hi, ho⟩, hshape⟩ := h
  exact ⟨⟨hth, htr, hk, hs, hi, ho⟩, hshape⟩

theorem MeetsInv.advance {c : Config} {pe : PE} (h : MeetsInv c pe) (d : Draw) :
    MeetsInv c (pe.advance d) := by
  obtain ⟨hlp, hel, hpc, hho, htr⟩ := h
  exact ⟨hlp, hel, fun hk => pcAligned_nextPc d (hpc hk), hho, htr⟩

/-- A running PE with nothing in its record meets what R29 says of the record and the idle flags. -/
theorem lowPowerInv_running {c : Config} {pe : PE} (hl : pe.lp = LowPower.running)
    (hi : pe.idle = false) (hs : pe.idleSignal = false) : pe.LowPowerInv c := by
  simp [PE.LowPowerInv, hl, hi, hs]

theorem MeetsInv.complete {c : Config} {pe : PE} (h : MeetsInv c pe) (d : Draw)
    (hk : pe.lp.kind ≠ .off) : MeetsInv c (pe.complete d) := by
  obtain ⟨-, hel, hpc, -, -⟩ := h
  exact ⟨lowPowerInv_running rfl rfl rfl,
    hel, fun _ => pcAligned_nextPc d (hpc hk), fun _ => rfl, by simp⟩

theorem MeetsInv.takeException {c : Config} {pe : PE} (h : MeetsInv c pe) (cause : ExcCause) {el : EL}
    (hk : pe.lp.kind ≠ .off) (he : el.implemented c = true) :
    MeetsInv c (pe.takeException cause el) := by
  obtain ⟨-, -, hpc, -, -⟩ := h
  exact ⟨lowPowerInv_running rfl rfl rfl, he, fun _ => hpc hk, fun _ => rfl, by simp⟩

theorem MeetsInv.mapArch {c : Config} {pe : PE} (h : MeetsInv c pe) {f : Arch → Arch}
    (her : (f pe.arch).er = pe.arch.er) (hpc : (f pe.arch).pc = pe.arch.pc)
    (hel : (f pe.arch).el.implemented c = true) : MeetsInv c (pe.mapArch f) := by
  obtain ⟨⟨hth, htr, hz, hs, hi, ho⟩, -, ha, hho, htl⟩ := h
  exact ⟨⟨hth, htr, fun hk => her.trans (hz hk), hs, hi, ho⟩,
    hel, fun hk => (congrArg pcAligned hpc).trans (ha hk), hho, htl⟩

theorem kind_eq_wfe_iff {w : WFx} : w.kind = .wfe ↔ w.isEvent = true := by
  cases w <;> simp [WFx.kind, WFx.isEvent]

theorem kind_suspended (w : WFx) : w.kind = .wfe ∨ w.kind = .wfi := by
  cases w <;> simp [WFx.kind, WFx.isEvent]

/-- Suspending keeps the invariant: the instruction meets what the record it writes claims. -/
theorem MeetsInv.suspend {c : Config} {pe : PE} (h : MeetsInv c pe) {w : WFx} {th : Option Word}
    {tr : Option EL} (hr : pe.lp.kind = .run) (hn : pe.handover = none)
    (hth : th.isSome = true → c.featWFxT = true) (her : w.isEvent = true → pe.arch.er = 0#1)
    (htr : ∀ el ∈ tr, w.isEvent = true ∧ c.featTWED = true ∧ el.implemented c = true) :
    MeetsInv c (pe.suspend w.kind th tr) := by
  obtain ⟨⟨-, -, -, hs, hi, -⟩, hel, hpc, -, -⟩ := h
  have hidle : pe.idle ≠ true := fun hidle => by simpa [hr] using hi hidle
  have hoff : w.kind ≠ .off := by rcases kind_suspended w with h | h <;> simp [h]
  refine ⟨⟨fun ht => ⟨kind_suspended w, hth ht⟩, fun ht => ?_, fun hk => her (kind_eq_wfe_iff.mp hk), hs,
    fun h => absurd h hidle, fun ho => absurd ho hoff⟩,
    hel, fun _ => hpc (by simp [hr]), by simp [hn], fun el he => ?_⟩
  · obtain ⟨el, he⟩ := Option.isSome_iff_exists.mp ht
    obtain ⟨hw, hf, -⟩ := htr el he
    exact ⟨kind_eq_wfe_iff.mpr hw, hf⟩
  · obtain ⟨-, -, hl⟩ := htr el he
    exact hl

theorem trapTarget_implemented {c : Config} {pe : PE} {w : WFx} {el : EL}
    (h : pe.trapTarget c w = some el) : el.implemented c = true :=
  (PE.subjectTo_iff.mp (PE.trapTarget_eq_some h).1).1

theorem trapDelayed_iff {c : Config} {pe : PE} {w : WFx} {el : EL} :
    pe.trapDelayed c w el = true ↔
      c.featTWED = true ∧ w.isEvent = true ∧ pe.arch.controls.delayAt el = true := by
  simp [PE.trapDelayed, and_assoc]

/-! ### Every outcome -/

theorem MeetsInv.exec {c : Config} {d : Draw} {pe pe' : PE} {i : Instr} (h : MeetsInv c pe)
    (hr : pe.executing = true) (ho : ExecOutcome c d pe i pe') : MeetsInv c pe' := by
  obtain ⟨hk, hn⟩ := PE.executing_iff.mp hr
  have hoff : pe.lp.kind ≠ .off := by simp [hk]
  have hwfe : ∀ v : BitVec 1, pe.lp.kind = .wfe → v = 0#1 := by simp [hk]
  cases ho with
  | profiling hw hc hp =>
    exact MeetsInv.takeException (h.mapArch (f := fun a => { a with syncProfiling := false })
      rfl rfl h.el_implemented) _ hoff (EL.legal_implemented _ _)
  | clears hw hev her => exact (h.setER _ (hwfe _)).complete d hoff
  | completes ha => exact h.complete d hoff
  | suspends ha ht => exact h.suspend hk hn ha.waits.feature ha.er_clear (by simp)
  | delays ha ht hd =>
    obtain ⟨hf, hev, -⟩ := trapDelayed_iff.mp hd
    exact h.suspend hk hn ha.waits.feature ha.er_clear
      fun el he => Option.some.inj he ▸ ⟨hev, hf, trapTarget_implemented ht⟩
  | traps ha ht => exact h.takeException _ hoff (trapTarget_implemented ht)
  | sev => exact h.advance d
  | sevl => exact (h.setER _ (hwfe _)).advance d

theorem MeetsInv.environment {c : Config} {pe : PE} (h : MeetsInv c pe) (a : EnvAction) :
    MeetsInv c (pe.environment c a) := by
  obtain ⟨her, hpc, -⟩ := pe.environment_arch c a
  obtain ⟨hlp, hidle, hsig, hho⟩ := pe.environment_lp c a
  have hel : (pe.environment c a).arch.el.implemented c = true := by
    rcases pe.environment_el c a with e | ⟨e, -, he, e'⟩
    · rw [e]; exact h.el_implemented
    · rw [e']; exact he
  obtain ⟨hl, -, hs⟩ := h
  constructor
  · simpa only [PE.LowPowerInv, her, hlp, hidle, hsig] using hl
  · simpa only [PE.ShapeInv, hpc, hlp, hho] using ⟨hel, hs⟩

theorem MeetsInv.resetStep {c : Config} (d : Draw) (pe : PE) (hc : pcAligned c.resetPc = true) :
    MeetsInv c (pe.resetStep c d) :=
  ⟨lowPowerInv_running rfl rfl rfl, EL.legal_implemented _ _, fun _ => hc, by simp, by simp⟩

theorem MeetsInv.move {c : Config} {d : Draw} {pe pe' : PE} {m : Move} (h : MeetsInv c pe)
    (hc : pcAligned c.resetPc = true) (ho : MoveOutcome c d pe m pe') : MeetsInv c pe' := by
  cases ho with
  | nothing => exact h
  | wakenByEvent e hk => exact (h.complete d (by simp [hk])).setER _ (fun hk => by cases hk)
  | hearsEvent e hk => exact h.setER _ fun hw => by simp [hw] at hk
  | wakes hk => exact h.complete d (by rcases hk with hk | hk <;> simp [hk])
  | delayedTrap el hk ht => exact h.takeException _ (by simp [hk]) (h.trap_implemented ht)
  | becomesIdle hk =>
    obtain ⟨⟨hth, htr, hz, -, -, hof⟩, hs⟩ := h
    exact ⟨⟨hth, htr, hz, fun _ => rfl, fun _ => hk, hof⟩, hs⟩
  | signalsIdle hcf hi hd =>
    obtain ⟨⟨hth, htr, hz, -, hid, hof⟩, hs⟩ := h
    exact ⟨⟨hth, htr, hz, fun _ => hi, hid, hof⟩, hs⟩
  | servesCapture => exact h.mapArch (f := fun a => { a with capture := false }) rfl rfl h.el_implemented
  | losesPower hk hcc =>
    exact ⟨by simp [PE.LowPowerInv, hcc], EL.legal_implemented _ _, by simp, by simp, by simp⟩
  | resets => exact .resetStep d pe hc
  | environment a => exact h.environment a
  | takesAsync x el hm =>
    obtain ⟨hx, -, -, -, he⟩ := mayTake_iff.mp hm
    have hk := (PE.executing_iff.mp hx).1
    exact (h.mapArch (f := Arch.withdraw x) rfl rfl h.el_implemented).takeException _ (by simp [hk]) he
  | startsHandler pc m hh ha =>
    obtain ⟨hl, hel, -, -, htr⟩ := h
    exact ⟨hl, hel, fun _ => ha, by simp, htr⟩
  | returns r hk ha hl =>
    obtain ⟨⟨hth, htr, -, hs, hi, ho⟩, -, -, -, htl⟩ := h
    exact ⟨⟨hth, htr, fun hw => by simp [hk] at hw, hs, hi, ho⟩, hl, fun _ => ha, by simp, htl⟩

/-! ### The machine -/

theorem meets_of_inv {s : State} (h : s.Inv) {p : Nat} {pe : PE} (hp : s.pes[p]? = some pe) :
    MeetsInv s.config pe := by
  obtain ⟨-, -, -, -, hall⟩ := h
  obtain ⟨hl, hs⟩ := hall pe (List.mem_of_getElem? hp)
  exact ⟨hl, hs⟩

/-- An event that a move leaves in flight was in flight, or the move sent it to the acting PE. -/
theorem mem_inflightAfter {p : Nat} {d : Draw} {m : Move} {l : List (Nat × Cause)} {e : Nat × Cause}
    (h : e ∈ inflightAfter p d m l) : e ∈ l ∨ e.1 = p := by
  cases m with
  | deliver c => exact .inl (List.mem_of_mem_erase h)
  | reset => exact .inl (mem_of_mem_keepInflight h)
  | env a =>
    simp only [inflightAfter] at h
    split at h
    · rcases List.mem_append.mp h with h | h
      · exact .inl h
      · exact .inr (congrArg Prod.fst (List.mem_singleton.mp h))
    · exact .inl h
  | execute | wake | delayedTrap | becomeIdle | signalIdle | serviceCapture | powerDown
  | takeAsync | enterHandler | exceptionReturn => exact .inl h

/-- An instruction puts events in flight only for PEs that exist. -/
theorem exec_inflight {i : Instr} {s u : State} {e : Nat × Cause} (h : exec i s = .next u)
    (he : e ∈ u.inflight) : e ∈ s.inflight ∨ e.1 < s.pes.length := by
  obtain ⟨p, c⟩ := e
  obtain ⟨pe, -, hc⟩ := exec_cases h
  rcases hc with ⟨w, th, -, rfl⟩ | ⟨w, th, -, rfl⟩ | ⟨-, rfl⟩ | ⟨-, rfl⟩
  · exact .inl he
  · exact .inl he
  · rcases List.mem_append.mp he with he | he
    · exact .inl he
    · exact .inr (mem_sevPairs.mp he).1
  · rcases List.mem_append.mp he with he | he
    · exact .inl he
    · split at he
      · exact .inr (mem_broadcastPairs.mp he).1
      · cases he

theorem step_inflight {s t : State} {e : Nat × Cause} (h : step s = .next t) (he : e ∈ t.inflight) :
    e ∈ s.inflight ∨ e.1 < s.pes.length := by
  rcases step_cases h with ⟨pe, i, u, -, -, -, hu, rfl⟩ | ⟨-, rfl⟩
  · exact exec_inflight hu he
  · rw [State.rollOver_inflight] at he
    rcases s.act_cases s.turn.move with e' | ⟨pe, hp, -, e'⟩ <;> rw [e'] at he
    · exact .inl he
    · rcases mem_inflightAfter he with he | he
      · exact .inl he
      · exact .inr (he ▸ State.acting?_lt hp)

/-- A step keeps the invariant of each PE. -/
theorem step_meets {s t : State} {p : Nat} {pe' : PE} (hinv : s.Inv) (h : step s = .next t)
    (hp' : t.pes[p]? = some pe') : MeetsInv s.config pe' := by
  obtain ⟨pe, hp⟩ := (step_getElem? h).mpr ⟨pe', hp'⟩
  have hpe := meets_of_inv hinv hp
  rcases step_outcome h hp hp' with rfl | ⟨-, ⟨i, -, hr, -, ho⟩ | ⟨-, ho⟩⟩
  · exact hpe
  · exact hpe.exec hr.2 ho
  · obtain ⟨-, hreset, -⟩ := hinv
    exact hpe.move hreset ho

/-- Settles O54: each outcome keeps the invariant of the acting PE. -/
theorem stepKeepsInvariant : Obligations.StepKeepsInvariant := by
  intro s t hinv h
  obtain ⟨hmem, hcfg, hlen⟩ := step_keeps h
  obtain ⟨hne, hrp, hwf, hin, -⟩ := id hinv
  refine ⟨fun he => hne ?_, hcfg ▸ hrp, hmem ▸ hwf, fun e he => ?_, fun pe hpe => ?_⟩
  · exact List.length_eq_zero_iff.mp (hlen ▸ he ▸ rfl)
  · rw [hlen]
    exact (step_inflight h he).elim (hin e) id
  · obtain ⟨p, hp⟩ := List.getElem?_of_mem hpe
    have := step_meets hinv h hp
    rw [hcfg]
    exact ⟨this.lowPower, this.shape⟩

/-- Settles O55. -/
theorem resetMeetsInvariant : Obligations.ResetMeetsInvariant := by
  exact ⟨⟨by decide, by decide, Memory.wf_reset, by decide, by decide⟩, by decide⟩

end Sys2Proof.Proofs

/-! The instruction step, and what the four waiting instructions do on a PE that is ready for them
(40_wait_for_event.md R55, R56; 42_wait_for_interrupt.md R90, R91). -/

namespace Sys2Proof.Proofs

open Sys2Proof.Machine

/-! ### Fetching -/

theorem wordOfBytes_toNat (b0 b1 b2 b3 : Byte) :
    (wordOfBytes b0 b1 b2 b3).toNat =
      b0.toNat + 2 ^ 8 * b1.toNat + 2 ^ 16 * b2.toNat + 2 ^ 24 * b3.toNat := by
  simp only [wordOfBytes, append_byte_toNat]
  omega

/-- The fetch reads four bytes. -/
theorem fetchWord_of_bytes {m : Memory} {a : Nat} {b0 b1 b2 b3 : Byte} (h0 : m.read a = some b0)
    (h1 : m.read (a + 1) = some b1) (h2 : m.read (a + 2) = some b2) (h3 : m.read (a + 3) = some b3) :
    m.fetchWord a = .ok (wordOfBytes b0 b1 b2 b3) := by
  simp only [Memory.fetchWord, h0, h1, h2, h3]

/-- The fetch stops at the first byte without a value. -/
theorem fetchWord_of_unwritten {m : Memory} {a k : Nat} (hk : k < 4)
    (hbelow : ∀ j, j < k → m.read (a + j) ≠ none) (hnone : m.read (a + k) = none) :
    m.fetchWord a = .error (a + k) := by
  have written : ∀ j, j < k → ∃ b, m.read (a + j) = some b :=
    fun j hj => Option.ne_none_iff_exists'.mp (hbelow j hj)
  match k, hk with
  | 0, _ =>
    have hn : m.read a = none := hnone
    simp [Memory.fetchWord, hn]
  | 1, _ =>
    obtain ⟨b0, h0⟩ := written 0 (by omega)
    have h0 : m.read a = some b0 := h0
    simp [Memory.fetchWord, h0, hnone]
  | 2, _ =>
    obtain ⟨b0, h0⟩ := written 0 (by omega)
    obtain ⟨b1, h1⟩ := written 1 (by omega)
    have h0 : m.read a = some b0 := h0
    simp [Memory.fetchWord, h0, h1, hnone]
  | 3, _ =>
    obtain ⟨b0, h0⟩ := written 0 (by omega)
    obtain ⟨b1, h1⟩ := written 1 (by omega)
    obtain ⟨b2, h2⟩ := written 2 (by omega)
    have h0 : m.read a = some b0 := h0
    simp [Memory.fetchWord, h0, h1, h2, hnone]

/-- Settles O7: the four bytes make the word, the fetch decodes it, the step runs it. -/
theorem stepRunsDecodedInstruction : Obligations.StepRunsDecodedInstruction := by
  intro s pe w i b0 b1 b2 b3 hm hr ha h0 h1 h2 h3 hw hd
  have hword : wordOfBytes b0 b1 b2 b3 = w :=
    BitVec.eq_of_toNat_eq ((wordOfBytes_toNat b0 b1 b2 b3).trans hw.symm)
  have hf : s.fetch pe = .next i :=
    (fetch_of_word ha ((fetchWord_of_bytes h0 h1 h2 h3).trans (congrArg _ hword))).1 i hd
  have hs := step_of_fetch hm hr hf
  refine ⟨fun t ht => ?_, fun f hf => ?_, fun r hr => ?_⟩
  · rw [hs, ht]
    rfl
  · rw [hs, hf]
    rfl
  · rw [hs, hr]
    rfl

/-- Settles O8. -/
theorem fetchStops : Obligations.FetchStops := by
  intro s pe hm hr
  obtain ⟨hfault, hrefused⟩ := step_of_fetch_stops hm hr
  constructor
  · intro ha
    exact hrefused _ (by simp [State.fetch, ha])
  · intro k ha hk hbelow hnone
    exact hfault _ (by simp [State.fetch, ha, fetchWord_of_unwritten hk hbelow hnone])

/-- Settles O9. -/
theorem registerOperandRead : Obligations.RegisterOperandRead := by
  intro a
  exact ⟨rfl, fun n h => by simp [Arch.readX, h]⟩

theorem nextPc_of_no_wrap {d : Draw} {pc : Word} (h : pc.toNat + 4 < 2 ^ 64) :
    nextPc d pc = pc + 4#64 := if_pos h

/-- Settles O10. -/
theorem completeGoesOnFourBytes : Obligations.CompleteGoesOnFourBytes := by
  intro d pe h
  have hpc := nextPc_of_no_wrap (d := d) h
  refine ⟨?_, hpc ▸ nextPc_toNat h⟩
  rw [PE.complete, hpc]
  rfl

/-! ### WFE and WFET, WFI and WFIT, on a ready PE

Each statement speaks of both instructions of a pair: the two differ only in the threshold. -/

/-- What WFE and WFET do on a ready PE, where both threshold cases come to the same. -/
theorem exec_event_of_ready {s : State} {pe pe' : PE} (h : s.WaitReady pe)
    (he : ∀ w th, w.isEvent = true → pe.waitForEvent s.config s.draw w th = pe') :
    exec .wfe s = .next (s.setActing pe') ∧
    (s.config.featWFxT = true → ∀ r : RegNum, exec (.wfet r) s = .next (s.setActing pe')) := by
  refine ⟨?_, fun hf r => ?_⟩
  · rw [exec_wfe_of_ready h, he _ _ rfl]
  · rw [exec_wfet_of_ready r h hf, he _ _ rfl]

/-- With the Event Register at 1 WFE and WFET clear it and complete. -/
theorem exec_event_of_set {s : State} {pe : PE} (h : s.WaitReady pe) (her : pe.arch.er = 1#1) :
    exec .wfe s = .next (s.setActing ((pe.setER 0#1).complete s.draw)) ∧
    (s.config.featWFxT = true → ∀ r : RegNum,
      exec (.wfet r) s = .next (s.setActing ((pe.setER 0#1).complete s.draw))) :=
  exec_event_of_ready h fun w th _ => PE.waitForEvent_of_set _ _ w th her

/-- Settles O11. -/
theorem waitForEventClearsAndCompletes : Obligations.WaitForEventClearsAndCompletes := fun _ _ h her =>
  exec_event_of_set h her

/-- Settles O12. -/
theorem waitForEventNotEntering : Obligations.WaitForEventNotEntering := fun _ _ h her hd =>
  exec_event_of_ready h fun w th _ =>
    (PE.waitForEvent_of_clear _ _ w th her).trans (PE.attempt_of_not_entering _ w th _ hd)

/-- Settles O13. -/
theorem waitForEventSuspends : Obligations.WaitForEventSuspends := by
  intro s pe h her hd
  refine ⟨fun ht => ?_, fun ht hf r => ?_⟩
  · rw [exec_wfe_of_ready h, PE.waitForEvent_of_clear _ _ _ _ her, PE.attempt_of_no_trap _ hd ht]
    rfl
  · rw [exec_wfet_of_ready r h hf, PE.waitForEvent_of_clear _ _ _ _ her,
      PE.attempt_of_no_trap _ hd ht]
    rfl

/-- Settles O14. -/
theorem waitForEventTraps : Obligations.WaitForEventTraps := by
  intro s pe el h her hd
  refine ⟨fun ht hn => ?_, fun ht hn hf r => ?_⟩
  · rw [exec_wfe_of_ready h, PE.waitForEvent_of_clear _ _ _ _ her, PE.attempt_of_trap _ hd ht hn]
    rfl
  · rw [exec_wfet_of_ready r h hf, PE.waitForEvent_of_clear _ _ _ _ her,
      PE.attempt_of_trap _ hd ht hn]
    rfl

/-- Settles O15. -/
theorem waitForEventDelaysTrap : Obligations.WaitForEventDelaysTrap := by
  intro s pe el h her hd hc hk
  have delayed : ∀ w : WFx, w.isEvent = true → pe.trapDelayed s.config w el = true :=
    fun w hw => trapDelayed_iff.mpr ⟨hc, hw, hk⟩
  refine ⟨fun ht => ?_, fun ht hf r => ?_⟩
  · rw [exec_wfe_of_ready h, PE.waitForEvent_of_clear _ _ _ _ her,
      PE.attempt_of_delayed_trap _ hd ht (delayed _ rfl)]
    rfl
  · rw [exec_wfet_of_ready r h hf, PE.waitForEvent_of_clear _ _ _ _ her,
      PE.attempt_of_delayed_trap _ hd ht (delayed _ rfl)]
    rfl

/-- Settles O16. -/
theorem waitForInterruptNotEntering : Obligations.WaitForInterruptNotEntering := by
  intro s pe h hd
  refine ⟨?_, fun hf r => ?_⟩
  · rw [exec_wfi_of_ready h, PE.attempt_of_not_entering _ _ _ _ hd]
    rfl
  · rw [exec_wfit_of_ready r h hf, PE.attempt_of_not_entering _ _ _ _ hd]
    rfl

/-- Settles O17. -/
theorem waitForInterruptSuspends : Obligations.WaitForInterruptSuspends := by
  intro s pe h hd
  refine ⟨fun ht => ?_, fun ht hf r => ?_⟩
  · rw [exec_wfi_of_ready h, PE.attempt_of_no_trap _ hd ht]
    rfl
  · rw [exec_wfit_of_ready r h hf, PE.attempt_of_no_trap _ hd ht]
    rfl

/-- No delay is ever configured for WFI and WFIT (60_exceptions.md R114). -/
theorem trapDelayed_of_not_event {c : Config} {pe : PE} {w : WFx} {el : EL} (hw : w.isEvent = false) :
    pe.trapDelayed c w el = false := by
  simp [PE.trapDelayed, hw]

/-- Settles O18. -/
theorem waitForInterruptTraps : Obligations.WaitForInterruptTraps := by
  intro s pe el h hd
  refine ⟨fun ht => ?_, fun ht hf r => ?_⟩
  · rw [exec_wfi_of_ready h, PE.attempt_of_trap _ hd ht (trapDelayed_of_not_event rfl)]
    rfl
  · rw [exec_wfit_of_ready r h hf, PE.attempt_of_trap _ hd ht (trapDelayed_of_not_event rfl)]
    rfl

theorem profilingFirst_of_pending {c : Config} {pe : PE} (d : Draw) (f : PE → PE)
    (hc : c.featSEBEP = true) (hp : pe.arch.syncProfiling = true) :
    pe.profilingFirst c d f = pe.takeSyncProfiling c d := by
  simp [PE.profilingFirst, hc, hp]

/-- Settles O19: whatever the instruction would do comes after the profiling exception. -/
theorem syncProfilingTakenFirst : Obligations.SyncProfilingTakenFirst := by
  intro s pe hr hc hp
  refine ⟨?_, ?_, fun hf r => ⟨?_, ?_⟩⟩
  · rw [exec, execWfe_of_running hr, profilingFirst_of_pending _ _ hc hp]
    rfl
  · rw [exec, execWfi_of_running hr, profilingFirst_of_pending _ _ hc hp]
    rfl
  · rw [exec, execWfet_of_running r hr hf, profilingFirst_of_pending _ _ hc hp]
    rfl
  · rw [exec, execWfit_of_running r hr hf, profilingFirst_of_pending _ _ hc hp]
    rfl

theorem trapTarget_none_of_highest {c : Config} {pe : PE} (w : WFx)
    (h : ∀ e : EL, e.implemented c = true → e.rank ≤ pe.arch.el.rank) :
    pe.trapTarget c w = none := by
  refine PE.trapTarget_eq_none.mpr fun e => Bool.eq_false_iff.mpr fun hs => ?_
  obtain ⟨himp, hlt, -⟩ := PE.subjectTo_iff.mp hs
  exact absurd hlt (not_lt.mpr (h e himp))

/-- Settles O29: where no trap target is left, the attempt suspends. -/
theorem noTrapAtHighestLevel : Obligations.NoTrapAtHighestLevel := by
  intro s pe h hd hel
  have none : ∀ w, pe.trapTarget s.config w = none := fun w => trapTarget_none_of_highest w hel
  obtain ⟨hwfi, hwfit⟩ := waitForInterruptSuspends s pe h hd
  exact ⟨fun her => (waitForEventSuspends s pe h her hd).1 (none _), hwfi (none _),
    fun hf r => ⟨fun her => (waitForEventSuspends s pe h her hd).2 (none _) hf r,
      hwfit (none _) hf r⟩⟩

/-! ### What an instruction leaves unchanged -/

/-- The borrowed components of a PE that no instruction writes: all but Event Register, pc, level,
record, idle flags, the synchronous profiling flag and the exception that waits. -/
structure SameBorrowed (pe pe' : PE) : Prop where
  inputs : pe'.inputs = pe.inputs
  x : pe'.arch.x = pe.arch.x
  masks : pe'.arch.masks = pe.arch.masks
  controls : pe'.arch.controls = pe.arch.controls
  cntvct : pe'.arch.cntvct = pe.arch.cntvct
  pend : pe'.arch.pend = pe.arch.pend
  edbgrq : pe'.arch.edbgrq = pe.arch.edbgrq
  capture : pe'.arch.capture = pe.arch.capture
  profiling : pe'.arch.profiling = pe.arch.profiling

theorem ExecOutcome.sameBorrowed {c : Config} {d : Draw} {pe pe' : PE} {i : Instr}
    (h : ExecOutcome c d pe i pe') : SameBorrowed pe pe' := by
  cases h <;> exact ⟨rfl, rfl, rfl, rfl, rfl, rfl, rfl, rfl, rfl⟩

/-- An instruction writes the Event Register only as WFE and WFET at 1, or as SEVL. -/
theorem ExecOutcome.er_cases {c : Config} {d : Draw} {pe pe' : PE} {i : Instr}
    (h : ExecOutcome c d pe i pe') :
    pe'.arch.er = pe.arch.er ∨
    ((i = .wfe ∨ ∃ r, i = .wfet r) ∧ pe.arch.er = 1#1 ∧ pe'.arch.er = 0#1) ∨
    (i = .sevl ∧ pe'.arch.er = 1#1) := by
  cases h with
  | clears hw hev her => exact .inr (.inl ⟨hw.instr_of_event hev, her, rfl⟩)
  | sevl => exact .inr (.inr ⟨rfl, rfl⟩)
  | profiling | completes | suspends | delays | traps | sev => exact .inl rfl

/-- An instruction changes the level only where it hands over an exception to the new one. -/
theorem ExecOutcome.el_cases {c : Config} {d : Draw} {pe pe' : PE} {i : Instr}
    (h : ExecOutcome c d pe i pe') :
    pe'.arch.el = pe.arch.el ∨
      ∃ h, pe'.handover = some h ∧ h.target = pe'.arch.el ∧ h.returnAddr = pe.arch.pc := by
  cases h with
  | profiling | traps => exact .inr ⟨_, rfl, rfl, rfl⟩
  | clears | completes | suspends | delays | sev | sevl => exact .inl rfl

theorem ExecOutcome.syncProfiling_cases {c : Config} {d : Draw} {pe pe' : PE} {i : Instr}
    (h : ExecOutcome c d pe i pe') :
    pe'.arch.syncProfiling = pe.arch.syncProfiling ∨
      (c.featSEBEP = true ∧ ∃ h, pe'.handover = some h ∧ h.cause = .syncProfiling) := by
  cases h with
  | profiling hw hc hp => exact .inr ⟨hc, _, rfl, rfl⟩
  | traps | clears | completes | suspends | delays | sev | sevl => exact .inl rfl

theorem ExecOutcome.pc_cases {c : Config} {d : Draw} {pe pe' : PE} {i : Instr}
    (h : ExecOutcome c d pe i pe') :
    pe'.arch.pc = pe.arch.pc ∨ pe'.arch.pc = nextPc d pe.arch.pc := by
  cases h with
  | profiling | traps | suspends | delays => exact .inl rfl
  | clears | completes | sev | sevl => exact .inr rfl

/-- A waiting instruction puts nothing in flight. -/
theorem exec_wait_inflight {i : Instr} {s t : State} (hsev : i ≠ .sev) (hsevl : i ≠ .sevl)
    (h : exec i s = .next t) : t.inflight = s.inflight := by
  obtain ⟨pe, -, hc⟩ := exec_cases h
  rcases hc with ⟨w, th, -, rfl⟩ | ⟨w, th, -, rfl⟩ | ⟨hi, -⟩ | ⟨hi, -⟩
  · rfl
  · rfl
  · exact absurd hi hsev
  · exact absurd hi hsevl

/-- After an instruction there is still an acting PE. -/
theorem exec_acting {i : Instr} {s t : State} (h : exec i s = .next t) :
    ∃ pe pe', s.acting? = some pe ∧ t.acting? = some pe' := by
  obtain ⟨pe, hr⟩ := exec_running h
  have hlt : t.turn.pe < t.pes.length := by
    obtain ⟨-, -, hlen⟩ := exec_keeps h
    rw [(exec_keeps_choice h).1, hlen]
    exact State.acting?_lt hr.1
  exact ⟨pe, _, hr.1, List.getElem?_eq_getElem hlt⟩

/-- Settles O20. -/
theorem waitFrame : Obligations.WaitFrame := by
  intro i s t hsev hsevl h
  obtain ⟨hcfg, hmem, hlen⟩ := exec_keeps h
  obtain ⟨hturn, hdraw, htick⟩ := exec_keeps_choice h
  obtain ⟨pe, pe', hp, hp'⟩ := exec_acting h
  obtain ⟨-, ho⟩ := exec_outcome h hp hp'
  obtain ⟨hin, hx, hma, hct, hcn, hpd, hed, hca, hpr⟩ := ho.sameBorrowed
  refine ⟨hcfg, exec_wait_inflight hsev hsevl h, fun a => by rw [hmem], hturn, hdraw, htick, hlen,
    fun q hq => exec_other h hq, pe, pe', hp, hp', hin, hx, hma, hct, hcn, hpd, hed, hca, hpr,
    ?_, ho.el_cases, ho.syncProfiling_cases.imp_right And.right, ho.pc_cases⟩
  rcases ho.er_cases with e | e | ⟨e, -⟩
  · exact .inl e
  · exact .inr e
  · exact absurd e hsevl

end Sys2Proof.Proofs

/-! The moves that are no instruction step, each where it is enabled (10_state.md R10). -/

namespace Sys2Proof.Proofs

open Sys2Proof.Machine

/-! ### One step of a move -/

/-- The moves that neither take an event out of INFLIGHT nor put one in. -/
def IsQuiet (m : Move) : Prop := ∀ p d l, inflightAfter p d m l = l

/-- A step whose move has no say in INFLIGHT replaces the acting PE and nothing else. -/
theorem step_of_quiet {s : State} {pe : PE} {m : Move} (hp : s.acting? = some pe)
    (hm : s.turn.move = m) (hne : m ≠ .execute) (hmay : s.mayMove m = true) (hq : IsQuiet m) :
    step s = .next (s.setActing (pe.move s.config s.draw m)).rollOver := by
  rw [step_of_acting hp hm hne hmay, hq]

/-- A step whose move is not enabled stutters. -/
theorem step_of_idle {s : State} {pe : PE} {m : Move} (hp : s.acting? = some pe)
    (hm : s.turn.move = m) (hne : m ≠ .execute) (hmay : s.mayMove m = true) (hq : IsQuiet m)
    (hid : pe.move s.config s.draw m = pe) : step s = .next s.rollOver := by
  rw [step_of_quiet hp hm hne hmay hq, hid, State.setActing_self hp]

/-- The acting PE after a step that replaced it. -/
theorem rollOver_acting {s : State} {pe pe' : PE} (hp : s.acting? = some pe) :
    (s.setActing pe').rollOver.pes[s.turn.pe]? = some pe' :=
  State.setActing_acting? hp

/-! ### Delivery, waking, the delayed trap -/

theorem receive_wfe {d : Draw} {pe : PE} (h : pe.lp.kind = .wfe) :
    pe.receive d = (pe.complete d).setER d.erAfterWake := by
  simp [PE.receive, h]

theorem receive_awake {d : Draw} {pe : PE} (h : pe.lp.kind = .run ∨ pe.lp.kind = .wfi) :
    pe.receive d = pe.setER 1#1 := by
  rcases h with h | h <;> simp [PE.receive, h]

theorem receive_off {d : Draw} {pe : PE} (h : pe.lp.kind = .off) : pe.receive d = pe := by
  simp [PE.receive, h]

/-- Settles O30, by the kind of the PE. -/
theorem deliveryByKind : Obligations.DeliveryByKind := by
  intro s pe c hp hm hc
  have hs := step_of_acting hp hm (by simp) (by simpa [State.mayMove] using hc)
  refine ⟨fun hk => ?_, fun hk => ?_, fun hk => ?_⟩
  · rw [hs, PE.move, receive_wfe hk]
    rfl
  · rw [hs, PE.move, receive_awake hk]
    rfl
  · rw [hs, PE.move, receive_off hk]
    rfl

theorem wakeStep_suspended {d : Draw} {pe : PE} (h : pe.lp.kind = .wfe ∨ pe.lp.kind = .wfi) :
    pe.wakeStep d = pe.complete d := by
  rcases h with h | h <;> simp [PE.wakeStep, h]

/-- Settles O31. -/
theorem wakeStepAlwaysEnabled : Obligations.WakeStepAlwaysEnabled := by
  intro s pe hp hm hk
  rw [step_of_quiet hp hm (by simp) rfl fun _ _ _ => rfl, PE.move, wakeStep_suspended hk]
  rfl

theorem delayedTrapStep_due {pe : PE} {el : EL} (hk : pe.lp.kind = .wfe) (ht : pe.lp.trap = some el) :
    pe.delayedTrapStep = pe.takeException (.trap pe.lp.suspendedEvent) el := by
  simp [PE.delayedTrapStep, hk, ht]

theorem suspendedEvent_eq (l : LowPower) :
    l.suspendedEvent = if l.timeout = none then .wfe else .wfet := by
  unfold LowPower.suspendedEvent
  cases l.timeout <;> rfl

/-- Settles O28. -/
theorem delayedTrapStepTaken : Obligations.DelayedTrapStepTaken := by
  intro s pe el hp hm hk ht
  rw [step_of_quiet hp hm (by simp) rfl fun _ _ _ => rfl, PE.move, delayedTrapStep_due hk ht,
    suspendedEvent_eq]
  rfl

/-! ### The exception model -/

theorem handlerStep_waiting {pc : Word} {m : Masks} {pe : PE} (hh : pe.handover.isSome = true)
    (ha : pcAligned pc = true) : pe.handlerStep pc m = pe.enterHandler pc m := by
  simp [PE.handlerStep, hh, ha]

theorem handlerStep_disabled {pc : Word} {m : Masks} {pe : PE}
    (h : pe.handover = none ∨ pcAligned pc = false) : pe.handlerStep pc m = pe := by
  rcases h with h | h <;> simp [PE.handlerStep, h]

theorem not_executing_of {pe : PE} (h : pe.lp.kind ≠ .run ∨ pe.handover.isSome = true) :
    pe.executing = false := by
  rcases h with h | h
  · simp [PE.executing, h]
  · simp [PE.executing, Option.isNone_eq_false_iff.mpr h]

/-- Settles O32: without an instruction step the turn stutters. -/
theorem suspendedPEExecutesNothing : Obligations.SuspendedPEExecutesNothing := by
  intro s pe hp
  refine ⟨fun hm hstop => ?_, fun pc m hm => ⟨fun hh ha => ?_, fun h => ?_⟩⟩
  · have hx : s.executingPE? = none := Option.eq_none_iff_forall_ne_some.mpr fun q hq => by
      obtain ⟨-, hq, hex⟩ := State.executingPE?_eq_some.mp hq
      cases hp.symm.trans hq
      simp [not_executing_of hstop] at hex
    have hact : s.act s.turn.move = s := by
      rw [hm, State.act_of_acting hp rfl]
      exact State.setActing_self hp
    simp [step, hx, hact]
  · rw [step_of_quiet hp hm (by simp) rfl fun _ _ _ => rfl, PE.move, handlerStep_waiting hh ha]
    rfl
  · exact step_of_idle hp hm (by simp) rfl (fun _ _ _ => rfl) (handlerStep_disabled h)

theorem returnStep_enabled {c : Config} {r : Resume} {pe : PE} (hk : pe.lp.kind = .run)
    (ha : pcAligned r.pc = true) (hl : r.el.implemented c = true) :
    pe.returnStep c r = pe.exceptionReturn r := by
  simp [PE.returnStep, hk, ha, hl]

/-- Settles O46. -/
theorem exceptionReturnSetsEventRegister : Obligations.ExceptionReturnSetsEventRegister := by
  intro s pe r hp hm hk ha hl
  rw [step_of_quiet hp hm (by simp) rfl fun _ _ _ => rfl, PE.move, returnStep_enabled hk ha hl]
  rfl

/-! ### Taking a pending exception -/

theorem intDisabled_iff {pe : PE} {x : AsyncExc} :
    pe.intDisabled x = true ↔ x ∈ pe.arch.controls.intDis := by
  simp [PE.intDisabled]

theorem bit_eq_one_iff (b : BitVec 1) : b = 1#1 ↔ b ≠ 0#1 := by
  revert b
  decide

/-- Held back: marked B, with its mask bit 1 and no effective Superpriority. -/
theorem heldByMask_iff {pe : PE} {x : AsyncExc} :
    pe.heldByMask x = true ↔
      pe.markOf x = .b ∧ pe.maskBit x = 1#1 ∧ pe.superpriorityApplies x = false := by
  simp [PE.heldByMask, PE.unmasked, bit_eq_one_iff]

/-- Settles O41. -/
theorem maskedInterruptNotTaken : Obligations.MaskedInterruptNotTaken := by
  intro s pe x el hp hm h
  have hmay : pe.mayTake s.config x el ≠ true := fun hmay => by
    obtain ⟨-, -, hdis, hheld, -⟩ := mayTake_iff.mp hmay
    rcases h with h | h
    · simp [intDisabled_iff.mpr h] at hdis
    · simp [heldByMask_iff.mpr h] at hheld
  exact step_of_idle hp hm (by simp) rfl (fun _ _ _ => rfl) (if_neg hmay)

/-- Settles O42. -/
theorem pendingExceptionTaken : Obligations.PendingExceptionTaken := by
  intro s pe x el hr hm hpend hdis hfree hl
  have hheld : pe.heldByMask x = false := Bool.eq_false_iff.mpr fun hheld => by
    obtain ⟨hb, hmask, hsp⟩ := heldByMask_iff.mp hheld
    simp [hb, hmask, hsp] at hfree
  have hmay : pe.mayTake s.config x el = true :=
    mayTake_iff.mpr ⟨hr.2, hpend, Bool.eq_false_iff.mpr (mt intDisabled_iff.mp hdis), hheld, hl⟩
  have htake : pe.move s.config s.draw (.takeAsync x el) =
      (pe.mapArch (Arch.withdraw x)).takeException (.async x) el := if_pos hmay
  refine ⟨_, _, step_of_quiet hr.1 hm (by simp) rfl fun _ _ _ => rfl, rollOver_acting hr.1, ?_⟩
  rw [htake]
  refine ⟨by simp, fun y hy => by simp [hy], rfl, rfl, rfl, rfl⟩

/-! ### Event sources, the Capture event, idle state -/

/-- Settles O45: these actions change no PE. -/
theorem eventSourcesPutInFlight : Obligations.EventSourcesPutInFlight := by
  intro s pe hp
  have sends : ∀ (a : EnvAction) (c : Cause), a.event = some c → s.turn.move = .env a →
      pe.environment s.config a = pe →
      step s = .next ({ s with inflight := s.inflight ++ [(s.turn.pe, c)] }).rollOver := by
    intro a c ha hm hpe
    have hin : inflightAfter s.turn.pe s.draw (.env a) s.inflight = s.inflight ++ [(s.turn.pe, c)] := by
      simp [inflightAfter, ha]
    have hself : State.setActing { s with inflight := s.inflight ++ [(s.turn.pe, c)] } pe =
        { s with inflight := s.inflight ++ [(s.turn.pe, c)] } := State.setActing_self hp
    rw [step_of_acting hp hm (by simp) rfl, PE.move, hpe, hin, hself]
  exact ⟨fun hm => sends _ _ rfl hm rfl, fun hm => sends _ _ rfl hm rfl, fun hm => sends _ _ rfl hm rfl⟩

/-- Settles O48. -/
theorem captureServedInPlace : Obligations.CaptureServedInPlace := fun _ _ hp hm =>
  step_of_quiet hp hm (by simp) rfl fun _ _ _ => rfl

/-- Settles O49. -/
theorem idleSteps : Obligations.IdleSteps := by
  intro s pe hp
  refine ⟨fun hm hk hq hi => ?_, fun hm hc hi hs hd => ?_⟩
  · rw [step_of_quiet hp hm (by simp) rfl fun _ _ _ => rfl, PE.move, PE.becomeIdle,
      if_pos ⟨hk, hq, hi⟩]
  · rw [step_of_quiet hp hm (by simp) rfl fun _ _ _ => rfl, PE.move, PE.signalIdle,
      if_pos ⟨hc, hi, hs, hd⟩]

/-! ### Powerdown and reset -/

/-- Settles O51. -/
theorem powerDownOnlyFromWfi : Obligations.PowerDownOnlyFromWfi := by
  intro s pe hp hm
  have quiet : IsQuiet .powerDown := fun _ _ _ => rfl
  refine ⟨fun hk hc => ?_, fun h => ?_⟩
  · rw [step_of_quiet hp hm (by simp) rfl quiet, PE.move, PE.powerDown, if_pos ⟨hk, hc⟩]
  · have hid : pe.powerDown s.config s.draw = pe := if_neg fun ⟨hk, hc⟩ => by simp [hk, hc] at h
    exact ⟨_, step_of_idle hp hm (by simp) rfl quiet hid, rfl, rfl, rfl, rfl⟩

/-- A reset only drops events, so it raises no count. -/
theorem count_keepInflight_le (p : Nat) (ks : List Bool) (l : List (Nat × Cause)) (e : Nat × Cause) :
    (keepInflight p ks l).count e ≤ l.count e := by
  refine List.Sublist.count_le e ?_
  induction l generalizing ks with
  | nil => exact .slnil
  | cons a l ih =>
    simp only [keepInflight]
    split
    · split
      · exact (ih _).cons_cons _
      · exact (ih _).cons_cons _
      · exact (ih _).cons _
    · exact (ih _).cons_cons _

/-- A reset drops no event for another PE. -/
theorem count_keepInflight_of_ne {p q : Nat} (h : q ≠ p) (ks : List Bool) (l : List (Nat × Cause))
    (c : Cause) : (keepInflight p ks l).count (q, c) = l.count (q, c) := by
  induction l generalizing ks with
  | nil => rfl
  | cons a l ih =>
    obtain ⟨r, e⟩ := a
    by_cases hr : r = p
    · have hne : (r, e) ≠ (q, c) := fun heq => h ((Prod.mk.inj heq).1.symm.trans hr)
      simp only [keepInflight, hr, if_true]
      rw [← hr, List.count_cons_of_ne hne]
      split
      · rw [List.count_cons_of_ne hne, hr, ih]
      · rw [List.count_cons_of_ne hne, hr, ih]
      · rw [hr, ih]
    · simp only [keepInflight, hr, if_false, List.count_cons, ih]

theorem step_reset {s : State} {pe : PE} (hp : s.acting? = some pe) (hm : s.turn.move = .reset) :
    step s = .next (({ s with inflight := keepInflight s.turn.pe s.draw.keep s.inflight }).setActing
      (pe.resetStep s.config s.draw)).rollOver :=
  step_of_acting hp hm (by simp) rfl

/-- Settles O52. -/
theorem resetStepLeaves : Obligations.ResetStepLeaves := by
  intro s pe hp hm
  exact ⟨_, _, step_reset hp hm, rollOver_acting hp, rfl,
    fun q hq => State.setActing_other hq,
    fun q c hq => count_keepInflight_of_ne hq _ _ c, fun c => count_keepInflight_le _ _ _ _, rfl⟩

/-- The draw `d` with the bit `b` for an UNKNOWN Event Register. -/
def unknownER (d : Draw) (b : BitVec 1) : Draw := { d with unknown := { d.unknown with er := b } }

/-- Settles O53: the bit is the one the draw holds. -/
theorem resetEventRegisterUnknown : Obligations.ResetEventRegisterUnknown := by
  intro s pe p b hp
  have hacting : (s.withChoice { pe := p, move := .reset } (unknownER s.draw b)).acting? = some pe := hp
  exact ⟨_, _, _, step_reset hacting rfl, rollOver_acting hacting, rfl⟩

end Sys2Proof.Proofs

/-! Traps: which attempts trap and to which level (60_exceptions.md R112 to R115), and the return to a
trapped instruction (R117). -/

namespace Sys2Proof.Proofs

open Sys2Proof.Machine

/-! ### The trap an instruction takes -/

/-- A PE for which nothing waits and whose instruction hands over a trap took that trap's target. -/
theorem ExecOutcome.taken_trap {c : Config} {d : Draw} {pe pe' : PE} {i : Instr} {w : WFx}
    {h : Handover} (ho : ExecOutcome c d pe i pe') (hn : pe.handover = none)
    (hh : pe'.handover = some h) (hc : h.cause = .trap w) :
    ∃ th el, Attempts c pe i w th ∧ pe.trapTarget c w = some el ∧
      pe' = pe.takeException (.trap w) el := by
  have none_waits : pe.handover ≠ some h := by simp [hn]
  cases ho with
  | traps ha ht =>
    cases hh
    cases hc
    exact ⟨_, _, ha, ht, rfl⟩
  | profiling =>
    cases hh
    cases hc
  | clears | completes | suspends | delays | sev | sevl => exact absurd hh none_waits

/-- Settles O25: the target is the lowest level the attempt is subject to a trap at. -/
theorem trapTakenIsTheLowest : Obligations.TrapTakenIsTheLowest := by
  intro i s t pe pe' w h hexec hp hp' hh hc
  obtain ⟨hr, ho⟩ := exec_outcome hexec hp hp'
  obtain ⟨th, el, -, ht, rfl⟩ := ho.taken_trap (handover_of_running hr) hh hc
  cases hh
  obtain ⟨hsub, hlow⟩ := PE.trapTarget_eq_some ht
  obtain ⟨himp, hlt, htraps⟩ := PE.subjectTo_iff.mp hsub
  exact ⟨rfl, himp, hlt, htraps, fun e he hle htr => hlow e (PE.subjectTo_iff.mpr ⟨he, hle, htr⟩)⟩

/-! ### The trap target from the controls, level by level -/

theorem trapTarget_el1 {c : Config} {pe : PE} {w : WFx} (hel : pe.arch.el = .el0)
    (ht : pe.arch.controls.traps w .el1 = true) : pe.trapTarget c w = some .el1 := by
  simp [PE.trapTarget, PE.subjectTo, EL.implemented, EL.rank, hel, ht]

/-- The trap to EL1 applies at EL0 only, and only where its control says so. -/
theorem subjectTo_el1_eq_false {c : Config} {pe : PE} {w : WFx}
    (h : (pe.arch.el = .el0 ∧ pe.arch.controls.traps w .el1 = false) ∨ pe.arch.el = .el1) :
    pe.subjectTo c w .el1 = false := by
  rcases h with ⟨-, ht⟩ | hel
  · simp [PE.subjectTo, ht]
  · simp [PE.subjectTo, EL.rank, hel]

theorem trapTarget_el2 {c : Config} {pe : PE} {w : WFx}
    (hel : (pe.arch.el = .el0 ∧ pe.arch.controls.traps w .el1 = false) ∨ pe.arch.el = .el1)
    (ht : pe.arch.controls.traps w .el2 = true) (hc : c.haveEL2 = true) :
    pe.trapTarget c w = some .el2 := by
  have hlt : pe.arch.el.rank < EL.el2.rank := by rcases hel with ⟨h, -⟩ | h <;> simp [h, EL.rank]
  have h2 : pe.subjectTo c w .el2 = true := PE.subjectTo_iff.mpr ⟨hc, hlt, ht⟩
  simp [PE.trapTarget, subjectTo_el1_eq_false hel, h2]

theorem trapTarget_el3 {c : Config} {pe : PE} {w : WFx} (h1 : pe.subjectTo c w .el1 = false)
    (h2 : pe.subjectTo c w .el2 = false) (hel : pe.arch.el.rank < EL.el3.rank)
    (ht : pe.arch.controls.traps w .el3 = true) (hc : c.haveEL3 = true) :
    pe.trapTarget c w = some .el3 := by
  have h3 : pe.subjectTo c w .el3 = true := PE.subjectTo_iff.mpr ⟨hc, hel, ht⟩
  simp [PE.trapTarget, h1, h2, h3]

/-- An attempt with a trap target traps there, delayed where a delay is configured for that trap. -/
theorem trapsTo_of_target {s : State} {pe : PE} {i : Instr} {w : WFx} {th : Option Word} {el : EL}
    {delay : Bool} (hr : s.Running pe) (hd : s.draw.enter = true)
    (he : exec i s = .next (s.setActing (pe.attempt s.config s.draw w th)))
    (ht : pe.trapTarget s.config w = some el)
    (hdel : pe.trapDelayed s.config w el = (s.config.featTWED && delay)) :
    s.TrapsTo pe i w el delay := by
  cases hb : s.config.featTWED && delay
  · rw [hb] at hdel
    rw [PE.attempt_of_trap th hd ht hdel] at he
    exact ⟨_, _, he, State.setActing_acting? hr.1, rfl, rfl, .inr ⟨hb, rfl, rfl⟩⟩
  · rw [hb] at hdel
    rw [PE.attempt_of_delayed_trap th hd ht hdel] at he
    exact ⟨_, _, he, State.setActing_acting? hr.1, rfl, rfl, .inl ⟨hb, rfl, rfl⟩⟩

/-- The rows of R112 for one pair of instructions: `n` at 0 traps to EL1, `h` at 1 to EL2, `sc` at 1 to
EL3, with `delay` the delay of each target. -/
theorem trapsTo_rows {s : State} {pe : PE} {i : Instr} {w : WFx} {th : Option Word}
    {n h sc : BitVec 1} {delay : EL → Bool} (hr : s.Running pe) (hd : s.draw.enter = true)
    (he : exec i s = .next (s.setActing (pe.attempt s.config s.draw w th)))
    (hn : pe.arch.controls.traps w .el1 = decide (n = 0#1))
    (hh : pe.arch.controls.traps w .el2 = decide (h = 1#1))
    (hs : pe.arch.controls.traps w .el3 = decide (sc = 1#1))
    (hdel : ∀ el, pe.trapDelayed s.config w el = (s.config.featTWED && delay el)) :
    (pe.arch.el = .el0 → n = 0#1 → s.TrapsTo pe i w .el1 (delay .el1)) ∧
    ((pe.arch.el = .el0 ∧ n = 1#1) ∨ pe.arch.el = .el1 →
      (h = 1#1 → s.config.haveEL2 = true → s.TrapsTo pe i w .el2 (delay .el2)) ∧
      (h = 0#1 ∨ s.config.haveEL2 = false → sc = 1#1 → s.config.haveEL3 = true →
        s.TrapsTo pe i w .el3 (delay .el3))) ∧
    (pe.arch.el = .el2 → sc = 1#1 → s.config.haveEL3 = true →
      s.TrapsTo pe i w .el3 (delay .el3)) := by
  have traps {el : EL} (ht : pe.trapTarget s.config w = some el) : s.TrapsTo pe i w el (delay el) :=
    trapsTo_of_target hr hd he ht (hdel el)
  refine ⟨fun hel hn0 => traps (trapTarget_el1 hel (by simp [hn, hn0])), fun hlow => ?_,
    fun hel hs1 h3 => ?_⟩
  · have hlow' : (pe.arch.el = .el0 ∧ pe.arch.controls.traps w .el1 = false) ∨ pe.arch.el = .el1 :=
      hlow.imp_left fun ⟨hel, hn1⟩ => ⟨hel, by simp [hn, hn1]⟩
    refine ⟨fun hh1 h2 => traps (trapTarget_el2 hlow' (by simp [hh, hh1]) h2), fun hno hs1 h3 => ?_⟩
    have h2 : pe.subjectTo s.config w .el2 = false := by
      rcases hno with h0 | h0
      · simp [PE.subjectTo, hh, h0]
      · simp [PE.subjectTo, EL.implemented, h0]
    have hlt : pe.arch.el.rank < EL.el3.rank := by
      rcases hlow with ⟨hel, -⟩ | hel <;> simp [hel, EL.rank]
    exact traps (trapTarget_el3 (subjectTo_el1_eq_false hlow') h2 hlt (by simp [hs, hs1]) h3)
  · have not_below {e : EL} (hle : e.rank ≤ EL.el2.rank) : pe.subjectTo s.config w e = false := by
      simp [PE.subjectTo, hel, not_lt.mpr hle]
    exact traps (trapTarget_el3 (not_below (by decide)) (not_below (by decide)) (by simp [hel, EL.rank])
      (by simp [hs, hs1]) h3)

/-- Settles O26: WFE and WFET with the delays of their targets, WFI and WFIT without. -/
theorem namedControlsTrap : Obligations.NamedControlsTrap := by
  intro s pe h hd
  refine ⟨fun i w hi her => ?_, fun i w hi => ?_⟩
  · rcases hi with ⟨rfl, rfl⟩ | ⟨hf, ⟨r, rfl⟩, rfl⟩
    · have he := exec_wfe_of_ready h
      rw [PE.waitForEvent_of_clear _ _ _ _ her] at he
      exact trapsTo_rows (delay := pe.arch.controls.delayAt) h.1 hd he rfl rfl rfl
        fun el => by simp [PE.trapDelayed, WFx.isEvent]
    · have he := exec_wfet_of_ready r h hf
      rw [PE.waitForEvent_of_clear _ _ _ _ her] at he
      exact trapsTo_rows (delay := pe.arch.controls.delayAt) h.1 hd he rfl rfl rfl
        fun el => by simp [PE.trapDelayed, WFx.isEvent]
  · rcases hi with ⟨rfl, rfl⟩ | ⟨hf, ⟨r, rfl⟩, rfl⟩
    · exact trapsTo_rows (delay := fun _ => false) h.1 hd (exec_wfi_of_ready h) rfl rfl rfl
        fun el => by simp [PE.trapDelayed, WFx.isEvent]
    · exact trapsTo_rows (delay := fun _ => false) h.1 hd (exec_wfit_of_ready r h hf) rfl rfl rfl
        fun el => by simp [PE.trapDelayed, WFx.isEvent]

/-! ### Delayed traps -/

/-- No trap reads a delay control. -/
theorem traps_of_delays (k : Controls) (d1 d2 d3 : Bool) (w : WFx) (e : EL) :
    Controls.traps { k with delayEL1 := d1, delayEL2 := d2, delayEL3 := d3 } w e = k.traps w e := by
  cases e <;> rfl

/-- `pe` with other delay controls. -/
def withDelays (pe : PE) (d1 d2 d3 : Bool) : PE :=
  { pe with arch := { pe.arch with controls :=
      { pe.arch.controls with delayEL1 := d1, delayEL2 := d2, delayEL3 := d3 } } }

theorem subjectTo_withDelays (c : Config) (pe : PE) (w : WFx) (d1 d2 d3 : Bool) (e : EL) :
    (withDelays pe d1 d2 d3).subjectTo c w e = pe.subjectTo c w e :=
  congrArg (_ && ·) (traps_of_delays pe.arch.controls d1 d2 d3 w e)

theorem trapTarget_withDelays (c : Config) (pe : PE) (w : WFx) (d1 d2 d3 : Bool) :
    (withDelays pe d1 d2 d3).trapTarget c w = pe.trapTarget c w := by
  simp [PE.trapTarget, subjectTo_withDelays]

/-- A trap that a waiting instruction records as delayed is the trap target. -/
theorem ExecOutcome.recorded_trap {c : Config} {d : Draw} {pe pe' : PE} {i : Instr} {el : EL}
    (ho : ExecOutcome c d pe i pe') (hsev : i ≠ .sev) (hsevl : i ≠ .sevl)
    (ht : pe'.lp.trap = some el) :
    ∃ w th, Waits c pe i w th ∧ pe.trapTarget c w = some el := by
  cases ho with
  | delays ha htt => exact ⟨_, _, ha.waits, htt.trans ht⟩
  | sev => exact absurd rfl hsev
  | sevl => exact absurd rfl hsevl
  | profiling | clears | completes | suspends | traps => cases ht

/-- Settles O27: the target when it is decided, what is recorded, and what falls due. -/
theorem delayDoesNotAffectPriority : Obligations.DelayDoesNotAffectPriority := by
  refine ⟨fun c pe w d1 d2 d3 => trapTarget_withDelays c pe w d1 d2 d3, ?_, ?_⟩
  · intro s t pe pe' el r hp hp' ht
    refine ⟨fun h => ?_, fun h => ?_⟩
    · obtain ⟨w, th, hw, htt⟩ :=
        (exec_outcome h hp hp').2.recorded_trap (by simp) (by simp) ht
      cases hw
      exact htt
    · obtain ⟨w, th, hw, htt⟩ :=
        (exec_outcome h hp hp').2.recorded_trap (by simp) (by simp) ht
      cases hw
      exact htt
  · intro s pe el hp hm hk ht
    exact ⟨_, _, _, delayedTrapStepTaken s pe el hp hm hk ht, rollOver_acting hp, rfl, rfl, rfl⟩

/-! ### The return to a trapped WFE or WFET -/

/-- What R117(a) starts from: the PE took the trap of `i` at an aligned pc, with no profiling exception
to take first. -/
structure TookTrap (c : Config) (pe pe' : PE) (i : Instr) (w : WFx) : Prop where
  waits : ∃ th, Waits c pe i w th
  ready : c.featSEBEP = true → pe.arch.syncProfiling = false
  aligned : pcAligned pe.arch.pc = true
  taken : ∃ el, pe' = pe.takeException (.trap w) el

theorem tookTrap_of_exec {s t : State} {pe pe' : PE} {i : Instr} {w : WFx} {h : Handover}
    (hinv : s.Inv) (hp : s.acting? = some pe) (hexec : exec i s = .next t)
    (hp' : t.pes[s.turn.pe]? = some pe') (hh : pe'.handover = some h) (hc : h.cause = .trap w) :
    TookTrap s.config pe pe' i w := by
  have hacting : t.acting? = some pe' := by rw [State.acting?, (exec_keeps_choice hexec).1, hp']
  obtain ⟨hr, ho⟩ := exec_outcome hexec hp hacting
  obtain ⟨th, el, ha, -, e⟩ := ho.taken_trap (handover_of_running hr) hh hc
  exact ⟨⟨th, ha.waits⟩, ha.ready, (meets_of_inv hinv hp).pc_aligned (by simp [kind_of_running hr]),
    el, e⟩

theorem tookTrap_of_delayed {s t : State} {pe pe' : PE} {i : Instr} {w : WFx} {h : Handover}
    (hi : (i = .wfe ∧ w = .wfe) ∨ ((∃ x, i = .wfet x) ∧ w = .wfet)) (hinv : s.Inv)
    (hp : s.acting? = some pe) (hm : s.turn.move = .delayedTrap) (hstep : step s = .next t)
    (hn : pe.handover = none) (hready : s.config.featSEBEP = true → pe.arch.syncProfiling = false)
    (hp' : t.pes[s.turn.pe]? = some pe') (hh : pe'.handover = some h) (hc : h.cause = .trap w) :
    TookTrap s.config pe pe' i w := by
  have hpe := meets_of_inv hinv hp
  have none_waits : pe.handover ≠ some h := by simp [hn]
  rcases step_outcome hstep hp hp' with rfl | ⟨-, ⟨_, hx, -⟩ | ⟨-, ho⟩⟩
  · exact absurd hh none_waits
  · rw [hm] at hx
    cases hx
  · rw [hm] at ho
    cases ho with
    | nothing => exact absurd hh none_waits
    | delayedTrap el hk ht =>
      cases hh
      have hw : pe.lp.suspendedEvent = w := ExcCause.trap.inj hc
      refine ⟨?_, hready, hpe.pc_aligned (by simp [hk]), el, by rw [hw]⟩
      rcases hi with ⟨rfl, rfl⟩ | ⟨⟨x, rfl⟩, rfl⟩
      · exact ⟨_, .wfe⟩
      · have hth : pe.lp.timeout.isSome = true := by
          by_contra hth
          simp [LowPower.suspendedEvent, hth] at hw
        exact ⟨_, .wfet x (hpe.timeout_feature hth)⟩

/-- What an exception return that is enabled leaves at its PE. -/
theorem step_return {s u : State} {p : Nat} {pe : PE} {r : Resume} {d : Draw}
    (hp : s.pes[p]? = some pe) (hk : pe.lp.kind = .run) (ha : pcAligned r.pc = true)
    (hl : r.el.implemented s.config = true)
    (h : step (s.withChoice { pe := p, move := .exceptionReturn r } d) = .next u) :
    u.config = s.config ∧ u.pes[p]? = some (pe.exceptionReturn r) := by
  have hacting : (s.withChoice { pe := p, move := .exceptionReturn r } d).acting? = some pe := hp
  cases (exceptionReturnSetsEventRegister _ _ r hacting rfl hk ha hl).symm.trans h
  exact ⟨rfl, rollOver_acting hacting⟩

/-- A WFE or WFET, whichever PE it was first tried on, completes on a ready PE `q` whose Event Register
is 1. -/
theorem exec_event_on {s : State} {pe q : PE} {i : Instr} {w : WFx} {th : Option Word}
    (hw : Waits s.config pe i w th) (hev : w.isEvent = true) (hq : s.WaitReady q)
    (her : q.arch.er = 1#1) : exec i s = .next (s.setActing ((q.setER 0#1).complete s.draw)) := by
  cases hw with
  | wfe => exact (exec_event_of_set hq her).1
  | wfet r hf => exact (exec_event_of_set hq her).2 hf r
  | wfi | wfit => cases hev

/-- Settles O47: the trap keeps pc, the return sets the Event Register, the instruction finds it set. -/
theorem trappedWaitReturnedToCompletes : Obligations.TrappedWaitReturnedToCompletes := by
  intro s t u pe pe' h r d d' i w hi hinv hp htrap hp' hh hc hrpc hrel hret
  have hev : w.isEvent = true := by rcases hi with ⟨-, rfl⟩ | ⟨-, rfl⟩ <;> rfl
  have htook : TookTrap s.config pe pe' i w := by
    rcases htrap with hexec | ⟨hm, hstep, hn, hready⟩
    · exact tookTrap_of_exec hinv hp hexec hp' hh hc
    · exact tookTrap_of_delayed hi hinv hp hm hstep hn hready hp' hh hc
  have htcfg : t.config = s.config := by
    rcases htrap with hexec | ⟨-, hstep, -⟩
    · exact (exec_keeps hexec).1
    · exact step_config hstep
  obtain ⟨⟨th, hw⟩, hready, ha, el, rfl⟩ := htook
  cases hh
  obtain ⟨hucfg, hq⟩ := step_return hp' rfl (hrpc ▸ ha) (htcfg ▸ hrel) hret
  have hcfg : (u.withChoice { pe := s.turn.pe, move := .execute } d').config = s.config :=
    hucfg.trans htcfg
  have hpc : ((pe.takeException (.trap w) el).exceptionReturn r).arch.pc = pe.arch.pc := hrpc
  have hwait : (u.withChoice { pe := s.turn.pe, move := .execute } d').WaitReady
      ((pe.takeException (.trap w) el).exceptionReturn r) := ⟨⟨hq, rfl⟩, fun hf => hready (hcfg ▸ hf)⟩
  exact ⟨_, _, exec_event_on (hcfg ▸ hw) hev hwait rfl, State.setActing_acting? hwait.1.1, rfl, rfl, rfl,
    congrArg (nextPc d') hpc, rfl⟩

end Sys2Proof.Proofs

/-! When a physical or virtual exception wakes a WFE (40_wait_for_event.md R63, R64), and when a wakeup
event is pending (R69, 42_wait_for_interrupt.md R105). -/

namespace Sys2Proof.Proofs

open Sys2Proof.Machine

/-! ### Mask bits -/

/-- Not held back: the mask bit of the type is 0, or effective Superpriority. -/
theorem unmasked_iff {pe : PE} {x : AsyncExc} :
    pe.unmasked x = true ↔ pe.maskBit x = 0#1 ∨ pe.superpriorityApplies x = true := by
  simp [PE.unmasked]

/-- Which mask bit belongs to which type, spelled out. -/
theorem bitOf_eq_zero_iff {m : Masks} {ty : ExcType} :
    m.bitOf ty = 0#1 ↔ (ty = .serror ∧ m.a = 0#1) ∨ (ty = .irq ∧ m.i = 0#1) ∨ (ty = .fiq ∧ m.f = 0#1) := by
  cases ty <;> simp [Masks.bitOf]

theorem superpriority_types {ty : ExcType} : ty ≠ .serror ↔ ty = .irq ∨ ty = .fiq := by
  cases ty <;> simp

/-- R63 and R64 spell out alike what does not hold back a physical or virtual exception. -/
theorem unmasked_iff_of_type {pe : PE} {x : AsyncExc} {ty : ExcType} {sp : Bool}
    (hx : x = .physical ty sp ∨ x = .virtual ty sp) :
    pe.unmasked x = true ↔
      (ty = .serror ∧ pe.arch.masks.a = 0#1) ∨ (ty = .irq ∧ pe.arch.masks.i = 0#1) ∨
      (ty = .fiq ∧ pe.arch.masks.f = 0#1) ∨
      (pe.inputs.allIntMask = 0#1 ∧ (ty = .irq ∨ ty = .fiq) ∧ sp = true) := by
  have htype : x.type = ty := by rcases hx with rfl | rfl <;> rfl
  have hsuper : pe.superpriorityApplies x = true ↔
      pe.inputs.allIntMask = 0#1 ∧ (ty = .irq ∨ ty = .fiq) ∧ sp = true := by
    rcases hx with rfl | rfl <;>
      simp only [PE.superpriorityApplies, Bool.and_eq_true, decide_eq_true_eq, superpriority_types,
        and_assoc]
  rw [unmasked_iff, hsuper, PE.maskBit, htype, bitOf_eq_zero_iff, or_assoc, or_assoc]

/-! ### WFE wakeup events, by the class of the exception -/

theorem physWakesWFE_physical_iff {pe : PE} {ty : ExcType} {sp : Bool} :
    pe.physWakesWFE (.physical ty sp) = true ↔
      .physical ty sp ∉ pe.arch.controls.intDis ∧
      (pe.markOf (.physical ty sp) = .a ∨
        (pe.markOf (.physical ty sp) = .b ∧ pe.unmasked (.physical ty sp) = true)) := by
  simp only [PE.physWakesWFE, Bool.and_eq_true, Bool.or_eq_true, decide_eq_true_eq, not_intDisabled_iff]

theorem virtWakesWFE_virtual_iff {pe : PE} {ty : ExcType} {sp : Bool} :
    pe.virtWakesWFE (.virtual ty sp) = true ↔
      (pe.arch.el = .el1 ∨ pe.arch.el = .el0) ∧ .virtual ty sp ∉ pe.arch.controls.intDis ∧
      pe.markOf (.virtual ty sp) = .b ∧ pe.unmasked (.virtual ty sp) = true := by
  simp only [PE.virtWakesWFE, Bool.and_eq_true, decide_eq_true_eq, not_intDisabled_iff, seesVirtual_iff,
    and_assoc]

/-- Settles O34, by the class of the exception. -/
theorem physicalWakesWfe : Obligations.PhysicalWakesWfe := by
  intro pe x
  cases x with
  | physical ty sp =>
    rw [physWakesWFE_physical_iff, unmasked_iff_of_type (.inl rfl)]
    exact ⟨fun h => ⟨ty, sp, rfl, h⟩, fun ⟨_, _, e, h⟩ => by cases e; exact h⟩
  | virtual ty sp => simp [PE.physWakesWFE]
  | delegated => simp [PE.physWakesWFE]

/-- Settles O35, by the class of the exception. -/
theorem virtualWakesWfe : Obligations.VirtualWakesWfe := by
  intro pe x
  cases x with
  | virtual ty sp =>
    rw [virtWakesWFE_virtual_iff, unmasked_iff_of_type (.inr rfl)]
    exact ⟨fun h => ⟨ty, sp, rfl, h⟩, fun ⟨_, _, e, h⟩ => by cases e; exact h⟩
  | physical ty sp => simp [PE.virtWakesWFE]
  | delegated => simp [PE.virtWakesWFE]

/-! ### Pending wakeup events -/

theorem timeoutWakes_iff {c : Config} {pe : PE} :
    pe.timeoutWakes c = true ↔
      c.featWFxT = true ∧ ∃ T, pe.lp.timeout = some T ∧ T.toNat ≤ pe.arch.cntvct.toNat := by
  unfold PE.timeoutWakes
  cases pe.lp.timeout <;> simp

theorem debugWakes_iff {pe : PE} :
    pe.debugWakes = true ↔ pe.inputs.haltingAllowed = true ∧ pe.arch.edbgrq = true := by
  simp [PE.debugWakes]

theorem wfeWakePending_iff {c : Config} {pe : PE} :
    pe.wfeWakePending c = true ↔
      (∃ x ∈ pe.arch.pend, pe.excWakesWFE x = true) ∨ pe.debugWakes = true ∨
      pe.timeoutWakes c = true := by
  simp only [PE.wfeWakePending, Bool.or_eq_true, List.any_eq_true, or_assoc]

theorem wfiWakePending_iff {c : Config} {pe : PE} :
    pe.wfiWakePending c = true ↔
      (∃ x ∈ pe.arch.pend, pe.excWakesWFI x = true) ∨ pe.debugWakes = true ∨
      pe.inputs.impDefEvent = true ∨ pe.timeoutWakes c = true := by
  simp only [PE.wfiWakePending, Bool.or_eq_true, List.any_eq_true, or_assoc]

theorem excWakesWFE_iff {pe : PE} {x : AsyncExc} :
    pe.excWakesWFE x = true ↔
      pe.physWakesWFE x = true ∨ pe.virtWakesWFE x = true ∨ pe.delegWakesWFE x = true := by
  simp only [PE.excWakesWFE, Bool.or_eq_true, or_assoc]

theorem excWakesWFI_iff {pe : PE} {x : AsyncExc} :
    pe.excWakesWFI x = true ↔
      pe.physWakesWFI x = true ∨ pe.virtWakesWFI x = true ∨ pe.delegWakesWFI x = true := by
  simp only [PE.excWakesWFI, Bool.or_eq_true, or_assoc]

/-- Settles O38. -/
theorem wakePendingConditions : Obligations.WakePendingConditions := fun _ _ =>
  ⟨timeoutWakes_iff, by simp only [wfeWakePending_iff, excWakesWFE_iff, debugWakes_iff],
    by simp only [wfiWakePending_iff, excWakesWFI_iff, debugWakes_iff]⟩

/-- An exception that wakes a WFE wakes a WFI: the markings of each class are among those of R99 to R101. -/
theorem excWakesWFI_of_WFE {pe : PE} {x : AsyncExc} (h : pe.excWakesWFE x = true) :
    pe.excWakesWFI x = true := by
  rw [excWakesWFI_iff]
  rcases excWakesWFE_iff.mp h with h | h | h
  · obtain ⟨ty, sp, rfl, -, hm⟩ := (physicalWakesWfe pe x).mp h
    exact .inl (physWakesWFI_iff.mpr ⟨⟨ty, sp, rfl⟩, hm.imp_right And.left⟩)
  · obtain ⟨ty, sp, rfl, hel, -, hm, -⟩ := (virtualWakesWfe pe x).mp h
    exact .inr (.inl (virtWakesWFI_iff.mpr ⟨⟨ty, sp, rfl⟩, hel, hm⟩))
  · obtain ⟨rfl, hel, -, hm⟩ := (delegatedWakesWfe pe x).mp h
    exact .inr (.inr (delegWakesWFI_iff.mpr ⟨rfl, hel, hm.imp_right And.left⟩))

/-- Settles O39. -/
theorem wfeWakersAreWfiWakers : Obligations.WfeWakersAreWfiWakers := by
  intro c pe h
  rw [wfiWakePending_iff]
  rcases wfeWakePending_iff.mp h with ⟨x, hx, hw⟩ | hw | hw
  · exact .inl ⟨x, hx, excWakesWFI_of_WFE hw⟩
  · exact .inr (.inl hw)
  · exact .inr (.inr (.inr hw))

/-- The exceptions that wake a WFI depend on the level and the markings alone. -/
theorem excWakesWFI_congr {pe pe' : PE} (hel : pe'.arch.el = pe.arch.el)
    (hmark : ∀ x, pe'.markOf x = pe.markOf x) (x : AsyncExc) :
    pe'.excWakesWFI x = pe.excWakesWFI x := by
  rw [Bool.eq_iff_iff]
  simp only [excWakesWFI_iff, physWakesWFI_iff, virtWakesWFI_iff, delegWakesWFI_iff, hel, hmark]

/-- Settles O40. -/
theorem wfiWakeIgnoresMasking : Obligations.WfiWakeIgnoresMasking := by
  intro c pe pe' hpend hel hmark hhalt hdbg himp hth hcnt
  rw [Bool.eq_iff_iff]
  simp only [wfiWakePending_iff, debugWakes_iff, timeoutWakes_iff, excWakesWFI_congr hel hmark, hpend,
    hhalt, hdbg, himp, hth, hcnt]

end Sys2Proof.Proofs

/-! Which steps change which component of a PE: the low-power record, the Event Register, the idle
signal, and the borrowed state (10_state.md R14 to R25). -/

namespace Sys2Proof.Proofs

open Sys2Proof.Machine

/-- A step changes a component `f` of a PE only at that PE's turn, and only as its outcome can (`W`). -/
theorem step_changed {s t : State} {p : Nat} {pe pe' : PE} {β : Type} {f : PE → β} {W : Prop}
    (h : step s = .next t) (hp : s.pes[p]? = some pe) (hp' : t.pes[p]? = some pe')
    (hexec : ∀ i, s.turn.move = .execute → s.Running pe → s.fetch pe = .next i →
      ExecOutcome s.config s.draw pe i pe' → f pe' = f pe ∨ W)
    (hmove : s.turn.pe = p → s.mayMove s.turn.move = true →
      MoveOutcome s.config s.draw pe s.turn.move pe' → f pe' = f pe ∨ W)
    (hne : f pe' ≠ f pe) : s.turn.pe = p ∧ W := by
  rcases step_outcome h hp hp' with rfl | ⟨hpe, ⟨i, hm, hr, hf, ho⟩ | ⟨hm, ho⟩⟩
  · exact absurd rfl hne
  · exact ⟨hpe, (hexec i hm hr hf ho).resolve_left hne⟩
  · exact ⟨hpe, (hmove hpe hm ho).resolve_left hne⟩

/-! ### The low-power record of a PE that does not run -/

/-- How a PE that does not run leaves its low-power record by the move `m`: it runs again. -/
inductive Resumes (pe : PE) : Move → Prop
  | reset : Resumes pe .reset
  | wake (hk : pe.lp.kind = .wfe ∨ pe.lp.kind = .wfi) : Resumes pe .wake
  | deliver (c : Cause) (hk : pe.lp.kind = .wfe) : Resumes pe (.deliver c)
  | delayedTrap (hk : pe.lp.kind = .wfe) (ht : pe.lp.trap.isSome = true) : Resumes pe .delayedTrap

theorem MoveOutcome.lp_cases {c : Config} {d : Draw} {pe pe' : PE} {m : Move}
    (h : MoveOutcome c d pe m pe') (hk : pe.lp.kind ≠ .run) :
    pe'.lp = pe.lp ∨ (pe'.lp = LowPower.running ∧ Resumes pe m) ∨
    (pe'.lp.kind = .off ∧ m = .powerDown ∧ pe.lp.kind = .wfi ∧ c.wfiCanComplete = false) := by
  cases h with
  | wakenByEvent e hw => exact .inr (.inl ⟨rfl, .deliver e hw⟩)
  | wakes hw => exact .inr (.inl ⟨rfl, .wake hw⟩)
  | delayedTrap el hw ht => exact .inr (.inl ⟨rfl, .delayedTrap hw (by simp [ht])⟩)
  | resets => exact .inr (.inl ⟨rfl, .reset⟩)
  | losesPower hw hc => exact .inr (.inr ⟨rfl, rfl, hw, hc⟩)
  | takesAsync x el hm => exact absurd (PE.executing_iff.mp (mayTake_iff.mp hm).1).1 hk
  | environment a => exact .inl (pe.environment_lp c a).1
  | _ => exact .inl rfl

/-- A step keeps the record of a PE that does not run, or the PE runs again, or it loses power. -/
theorem step_lp {s t : State} {p : Nat} {pe pe' : PE} (h : step s = .next t)
    (hp : s.pes[p]? = some pe) (hp' : t.pes[p]? = some pe') (hk : pe.lp.kind ≠ .run) :
    pe'.lp = pe.lp ∨ (s.turn.pe = p ∧ s.mayMove s.turn.move = true ∧
      ((pe'.lp = LowPower.running ∧ Resumes pe s.turn.move) ∨
       (pe'.lp.kind = .off ∧ s.turn.move = .powerDown ∧ pe.lp.kind = .wfi ∧
        s.config.wfiCanComplete = false))) := by
  rcases step_outcome h hp hp' with rfl | ⟨hpe, ⟨i, -, hr, -⟩ | ⟨hm, ho⟩⟩
  · exact .inl rfl
  · exact absurd (kind_of_running hr) hk
  · exact (ho.lp_cases hk).imp_right fun h => ⟨hpe, hm, h⟩

theorem mayMove_deliver {s : State} {c : Cause} :
    s.mayMove (.deliver c) = true ↔ (s.turn.pe, c) ∈ s.inflight := by
  simp [State.mayMove]

/-- Settles O33. -/
theorem suspensionLeftOnlyByListedSteps : Obligations.SuspensionLeftOnlyByListedSteps := by
  intro s t p pe pe' h hp hp' hne
  have left : pe.lp.kind ≠ .run → s.turn.pe = p ∧ s.mayMove s.turn.move = true ∧
      ((pe'.lp = LowPower.running ∧ Resumes pe s.turn.move) ∨
       (pe'.lp.kind = .off ∧ s.turn.move = .powerDown ∧ pe.lp.kind = .wfi ∧
        s.config.wfiCanComplete = false)) := fun hk =>
    (step_lp h hp hp' hk).resolve_left fun e => hne (congrArg LowPower.kind e)
  refine ⟨fun hk => ?_, fun hk => ?_, fun hk => ?_⟩
  · obtain ⟨rfl, hmay, ⟨hl, hres⟩ | ⟨-, -, hw, -⟩⟩ := left (by simp [hk])
    · refine ⟨rfl, by simp [hl], ?_⟩
      generalize s.turn.move = m at hmay hres
      cases hres with
      | reset => exact .inr (.inr (.inr rfl))
      | wake => exact .inl rfl
      | deliver c => exact .inr (.inl ⟨c, rfl, mayMove_deliver.mp hmay⟩)
      | delayedTrap _ ht => exact .inr (.inr (.inl ⟨rfl, ht⟩))
    · simp [hk] at hw
  · obtain ⟨hpe, -, ⟨hl, hres⟩ | ⟨hoff, hm, -, hc⟩⟩ := left (by simp [hk])
    · refine ⟨hpe, .inl ⟨by simp [hl], ?_⟩⟩
      generalize s.turn.move = m at hres
      cases hres with
      | reset => exact .inr rfl
      | wake => exact .inl rfl
      | deliver _ hw | delayedTrap hw => simp [hk] at hw
    · exact ⟨hpe, .inr ⟨hoff, hm, hc⟩⟩
  · obtain ⟨hpe, -, ⟨hl, hres⟩ | ⟨-, -, hw, -⟩⟩ := left (by simp [hk])
    · refine ⟨hpe, by simp [hl], ?_⟩
      generalize s.turn.move = m at hres
      cases hres with
      | reset => rfl
      | wake hw | deliver _ hw | delayedTrap hw => simp [hk] at hw
    · simp [hk] at hw

/-! ### The Event Register -/

theorem MoveOutcome.er_cases {c : Config} {d : Draw} {pe pe' : PE} {m : Move}
    (h : MoveOutcome c d pe m pe') :
    pe'.arch.er = pe.arch.er ∨
    (∃ e, m = .deliver e ∧ (pe.lp.kind = .wfe ∨ pe'.arch.er = 1#1)) ∨
    (∃ r, m = .exceptionReturn r ∧ pe.lp.kind = .run ∧ pe'.arch.er = 1#1) ∨
    m = .reset ∨ (m = .powerDown ∧ pe.lp.kind = .wfi ∧ c.wfiCanComplete = false) := by
  cases h with
  | wakenByEvent e hw => exact .inr (.inl ⟨e, rfl, .inl hw⟩)
  | hearsEvent e => exact .inr (.inl ⟨e, rfl, .inr rfl⟩)
  | returns r hk => exact .inr (.inr (.inl ⟨r, rfl, hk, rfl⟩))
  | resets => exact .inr (.inr (.inr (.inl rfl)))
  | losesPower hw hc => exact .inr (.inr (.inr (.inr ⟨rfl, hw, hc⟩)))
  | environment a => exact .inl (pe.environment_arch c a).1
  | _ => exact .inl rfl

/-- Settles O43: a delivered event draws the register only of a PE in WFE, where it is 0 already. -/
theorem eventRegisterClearedOnlyByWait : Obligations.EventRegisterClearedOnlyByWait := by
  intro s t p pe pe' hinv h hp hp' hone hzero
  have hpe := meets_of_inv hinv hp
  refine step_changed (f := fun q => q.arch.er) h hp hp' (fun i hm hr hf ho => ?_) (fun _ _ ho => ?_)
    (by simp [hone, hzero])
  · rcases ho.er_cases with e | ⟨rfl | ⟨r, rfl⟩, -⟩ | ⟨-, e⟩
    · exact .inl e
    · exact .inr (.inl ⟨hm, .inl hf⟩)
    · exact .inr (.inl ⟨hm, .inr ⟨r, hf⟩⟩)
    · simp [hzero] at e
  · rcases ho.er_cases with e | ⟨e, -, hw | hset⟩ | ⟨r, -, -, hset⟩ | e | e
    · exact .inl e
    · exact absurd (hone.symm.trans (hpe.er_of_wfe hw)) (by decide)
    · simp [hzero] at hset
    · simp [hzero] at hset
    · exact .inr (.inr (.inl e))
    · exact .inr (.inr (.inr e))

/-- Settles O44. -/
theorem eventRegisterSetOnlyByCauses : Obligations.EventRegisterSetOnlyByCauses := by
  intro s t p pe pe' h hp hp' hzero hone
  refine step_changed (f := fun q => q.arch.er) h hp hp' (fun i hm hr hf ho => ?_)
    (fun hpe hmay ho => ?_) (by simp [hone, hzero])
  · rcases ho.er_cases with e | ⟨-, e, -⟩ | ⟨rfl, -⟩
    · exact .inl e
    · simp [hzero] at e
    · exact .inr (.inl ⟨hm, hf⟩)
  · rcases ho.er_cases with e | ⟨c, hm, -⟩ | ⟨r, hm, hk, -⟩ | e | e
    · exact .inl e
    · exact .inr (.inr (.inl ⟨c, hm, hpe ▸ mayMove_deliver.mp (hm ▸ hmay)⟩))
    · exact .inr (.inr (.inr (.inl ⟨r, hm, hk⟩)))
    · exact .inr (.inr (.inr (.inr (.inl e))))
    · exact .inr (.inr (.inr (.inr (.inr e))))

/-! ### The idle signal -/

theorem ExecOutcome.idleSignal_cases {c : Config} {d : Draw} {pe pe' : PE} {i : Instr}
    (h : ExecOutcome c d pe i pe') : pe'.idleSignal = pe.idleSignal ∨ pe'.idleSignal = false := by
  cases h with
  | suspends | delays | sev | sevl => exact .inl rfl
  | profiling | clears | completes | traps => exact .inr rfl

theorem MoveOutcome.idleSignal_cases {c : Config} {d : Draw} {pe pe' : PE} {m : Move}
    (h : MoveOutcome c d pe m pe') :
    pe'.idleSignal = pe.idleSignal ∨ pe'.idleSignal = false ∨
    (m = .signalIdle ∧ c.wfiPowerdown = true ∧ pe.idle = true ∧
      (pe.arch.controls.dlk = 0#1 ∨ pe.inputs.debugInterfaceIdle = true)) := by
  cases h with
  | signalsIdle hc hi hd => exact .inr (.inr ⟨rfl, hc, hi, hd⟩)
  | environment a =>
    obtain ⟨-, -, hs, -⟩ := pe.environment_lp c a
    exact .inl hs
  | wakenByEvent | wakes | delayedTrap | losesPower | resets | takesAsync => exact .inr (.inl rfl)
  | _ => exact .inl rfl

/-- Settles O50. -/
theorem idleSignalGuard : Obligations.IdleSignalGuard := by
  intro s t p pe pe' h hp hp' hfalse htrue
  have guard : s.turn.pe = p ∧ s.turn.move = .signalIdle ∧ s.config.wfiPowerdown = true ∧
      pe.idle = true ∧ (pe.arch.controls.dlk = 0#1 ∨ pe.inputs.debugInterfaceIdle = true) := by
    refine step_changed (f := PE.idleSignal) h hp hp' (fun i _ _ _ ho => ?_) (fun _ _ ho => ?_)
      (by simp [hfalse, htrue])
    · exact ho.idleSignal_cases.imp_right fun e => by simp [htrue] at e
    · exact ho.idleSignal_cases.imp_right fun e => e.resolve_left (by simp [htrue])
  obtain ⟨rfl, hm, hc, hi, hd⟩ := guard
  exact ⟨by rw [← hm], hc, hi, fun hd1 => hd.resolve_left (by simp [hd1])⟩

/-! ### The borrowed state -/

/-- The environment changes these flags and the inputs each by its own action only. -/
theorem environment_edbgrq (c : Config) (a : EnvAction) (pe : PE) :
    (pe.environment c a).arch.edbgrq = pe.arch.edbgrq ∨ ∃ b, a = .debugRequest b := by
  cases a with
  | debugRequest b => exact .inr ⟨b, rfl⟩
  | setLevel e => exact .inl (by rw [PE.environment, PE.setLevel_eq])
  | _ => exact .inl rfl

theorem environment_capture (c : Config) (a : EnvAction) (pe : PE) :
    (pe.environment c a).arch.capture = pe.arch.capture ∨ a = .captureEvent := by
  cases a with
  | captureEvent => exact .inr rfl
  | setLevel e => exact .inl (by rw [PE.environment, PE.setLevel_eq])
  | _ => exact .inl rfl

theorem environment_profiling (c : Config) (a : EnvAction) (pe : PE) :
    (pe.environment c a).arch.profiling = pe.arch.profiling ∨ ∃ b, a = .setProfiling b := by
  cases a with
  | setProfiling b => exact .inr ⟨b, rfl⟩
  | setLevel e => exact .inl (by rw [PE.environment, PE.setLevel_eq])
  | _ => exact .inl rfl

theorem environment_syncProfiling (c : Config) (a : EnvAction) (pe : PE) :
    (pe.environment c a).arch.syncProfiling = pe.arch.syncProfiling ∨ ∃ b, a = .setSyncProfiling b := by
  cases a with
  | setSyncProfiling b => exact .inr ⟨b, rfl⟩
  | setLevel e => exact .inl (by rw [PE.environment, PE.setLevel_eq])
  | _ => exact .inl rfl

theorem environment_inputs (c : Config) (a : EnvAction) (pe : PE) :
    (pe.environment c a).inputs = pe.inputs ∨ ∃ i, a = .setInputs i := by
  cases a with
  | setInputs i => exact .inr ⟨i, rfl⟩
  | setLevel e => exact .inl (by rw [PE.environment, PE.setLevel_eq])
  | _ => exact .inl rfl

section Writers

variable {c : Config} {d : Draw} {pe pe' : PE} {m : Move}

theorem MoveOutcome.x_cases (h : MoveOutcome c d pe m pe') :
    pe'.arch.x = pe.arch.x ∨ m = .reset ∨ m = .powerDown ∨ ∃ r, m = .exceptionReturn r := by
  cases h with
  | resets => exact .inr (.inl rfl)
  | losesPower => exact .inr (.inr (.inl rfl))
  | returns r => exact .inr (.inr (.inr ⟨r, rfl⟩))
  | environment a =>
    obtain ⟨-, -, hx⟩ := pe.environment_arch c a
    exact .inl hx
  | _ => exact .inl rfl

theorem MoveOutcome.masks_cases (h : MoveOutcome c d pe m pe') :
    pe'.arch.masks = pe.arch.masks ∨ m = .reset ∨ m = .powerDown ∨ (∃ r, m = .exceptionReturn r) ∨
    (∃ k, m = .env (.setMasks k)) ∨ ∃ pc k, m = .enterHandler pc k ∧ pe.handover.isSome = true := by
  cases h with
  | resets => exact .inr (.inl rfl)
  | losesPower => exact .inr (.inr (.inl rfl))
  | returns r => exact .inr (.inr (.inr (.inl ⟨r, rfl⟩)))
  | environment a =>
    rcases pe.environment_masks c a with e | ⟨k, rfl⟩
    · exact .inl e
    · exact .inr (.inr (.inr (.inr (.inl ⟨k, rfl⟩))))
  | startsHandler pc k hh => exact .inr (.inr (.inr (.inr (.inr ⟨pc, k, rfl, hh⟩))))
  | _ => exact .inl rfl

theorem MoveOutcome.controls_cases (h : MoveOutcome c d pe m pe') :
    pe'.arch.controls = pe.arch.controls ∨ m = .reset ∨ m = .powerDown ∨
    ∃ k, m = .env (.setControls k) := by
  cases h with
  | resets => exact .inr (.inl rfl)
  | losesPower => exact .inr (.inr (.inl rfl))
  | environment a =>
    rcases (pe.environment_controls c a).1 with e | ⟨k, rfl⟩
    · exact .inl e
    · exact .inr (.inr (.inr ⟨k, rfl⟩))
  | _ => exact .inl rfl

theorem MoveOutcome.cntvct_cases (h : MoveOutcome c d pe m pe') :
    pe'.arch.cntvct = pe.arch.cntvct ∨ m = .reset ∨ m = .powerDown ∨ ∃ v, m = .env (.counter v) := by
  cases h with
  | resets => exact .inr (.inl rfl)
  | losesPower => exact .inr (.inr (.inl rfl))
  | environment a =>
    rcases (pe.environment_controls c a).2 with e | ⟨v, rfl⟩
    · exact .inl e
    · exact .inr (.inr (.inr ⟨v, rfl⟩))
  | _ => exact .inl rfl

theorem MoveOutcome.el_cases (h : MoveOutcome c d pe m pe') :
    pe'.arch.el = pe.arch.el ∨ m = .reset ∨ m = .powerDown ∨ (∃ r, m = .exceptionReturn r) ∨
    (∃ e, m = .env (.setLevel e) ∧ e.implemented c = true) ∨
    ∃ h, pe'.handover = some h ∧ h.target = pe'.arch.el := by
  cases h with
  | resets => exact .inr (.inl rfl)
  | losesPower => exact .inr (.inr (.inl rfl))
  | returns r => exact .inr (.inr (.inr (.inl ⟨r, rfl⟩)))
  | environment a =>
    rcases pe.environment_el c a with e | ⟨e, rfl, he, -⟩
    · exact .inl e
    · exact .inr (.inr (.inr (.inr (.inl ⟨e, rfl, he⟩))))
  | delayedTrap | takesAsync => exact .inr (.inr (.inr (.inr (.inr ⟨_, rfl, rfl⟩))))
  | _ => exact .inl rfl

theorem MoveOutcome.pend_cases (h : MoveOutcome c d pe m pe') :
    pe'.arch.pend = pe.arch.pend ∨ m = .reset ∨ m = .powerDown ∨ (∃ x, m = .env (.raise x)) ∨
    (∃ x, m = .env (.withdraw x)) ∨ ∃ x e, m = .takeAsync x e ∧ x ∈ pe.arch.pend := by
  cases h with
  | resets => exact .inr (.inl rfl)
  | losesPower => exact .inr (.inr (.inl rfl))
  | environment a =>
    rcases pe.environment_pend c a with e | ⟨x, rfl⟩ | ⟨x, rfl⟩
    · exact .inl e
    · exact .inr (.inr (.inr (.inl ⟨x, rfl⟩)))
    · exact .inr (.inr (.inr (.inr (.inl ⟨x, rfl⟩))))
  | takesAsync x e hm =>
    obtain ⟨-, hpend, -⟩ := mayTake_iff.mp hm
    exact .inr (.inr (.inr (.inr (.inr ⟨x, e, rfl, hpend⟩))))
  | _ => exact .inl rfl

theorem MoveOutcome.edbgrq_cases (h : MoveOutcome c d pe m pe') :
    pe'.arch.edbgrq = pe.arch.edbgrq ∨ m = .reset ∨ m = .powerDown ∨
    ∃ b, m = .env (.debugRequest b) := by
  cases h with
  | resets => exact .inr (.inl rfl)
  | losesPower => exact .inr (.inr (.inl rfl))
  | environment a =>
    rcases environment_edbgrq c a pe with e | ⟨b, rfl⟩
    · exact .inl e
    · exact .inr (.inr (.inr ⟨b, rfl⟩))
  | _ => exact .inl rfl

theorem MoveOutcome.capture_cases (h : MoveOutcome c d pe m pe') :
    pe'.arch.capture = pe.arch.capture ∨ m = .reset ∨ m = .powerDown ∨ m = .env .captureEvent ∨
    m = .serviceCapture := by
  cases h with
  | resets => exact .inr (.inl rfl)
  | losesPower => exact .inr (.inr (.inl rfl))
  | environment a =>
    rcases environment_capture c a pe with e | rfl
    · exact .inl e
    · exact .inr (.inr (.inr (.inl rfl)))
  | servesCapture => exact .inr (.inr (.inr (.inr rfl)))
  | _ => exact .inl rfl

theorem MoveOutcome.profiling_cases (h : MoveOutcome c d pe m pe') :
    pe'.arch.profiling = pe.arch.profiling ∨ m = .reset ∨ m = .powerDown ∨
    ∃ b, m = .env (.setProfiling b) := by
  cases h with
  | resets => exact .inr (.inl rfl)
  | losesPower => exact .inr (.inr (.inl rfl))
  | environment a =>
    rcases environment_profiling c a pe with e | ⟨b, rfl⟩
    · exact .inl e
    · exact .inr (.inr (.inr ⟨b, rfl⟩))
  | _ => exact .inl rfl

theorem MoveOutcome.syncProfiling_cases (h : MoveOutcome c d pe m pe') :
    pe'.arch.syncProfiling = pe.arch.syncProfiling ∨ m = .reset ∨ m = .powerDown ∨
    ∃ b, m = .env (.setSyncProfiling b) := by
  cases h with
  | resets => exact .inr (.inl rfl)
  | losesPower => exact .inr (.inr (.inl rfl))
  | environment a =>
    rcases environment_syncProfiling c a pe with e | ⟨b, rfl⟩
    · exact .inl e
    · exact .inr (.inr (.inr ⟨b, rfl⟩))
  | _ => exact .inl rfl

theorem MoveOutcome.inputs_cases (h : MoveOutcome c d pe m pe') :
    pe'.inputs = pe.inputs ∨ ∃ i, m = .env (.setInputs i) := by
  cases h with
  | environment a => exact (environment_inputs c a pe).imp_right fun ⟨i, e⟩ => ⟨i, congrArg _ e⟩
  | _ => exact .inl rfl

end Writers

/-- Settles O58, component by component: most are written by no instruction. -/
theorem borrowedStateWrittenOnlyBy : Obligations.BorrowedStateWrittenOnlyBy := by
  intro s t p pe pe' h hp hp'
  have by_move {β : Type} {f : PE → β} {W : Prop} (hsame : SameBorrowed pe pe' → f pe' = f pe)
      (hmove : MoveOutcome s.config s.draw pe s.turn.move pe' → f pe' = f pe ∨ W) :
      f pe' ≠ f pe → s.turn.pe = p ∧ W :=
    step_changed h hp hp' (fun _ _ _ _ ho => .inl (hsame ho.sameBorrowed)) fun _ _ => hmove
  refine ⟨by_move (f := fun q => q.arch.x) (·.x) (·.x_cases),
    by_move (f := fun q => q.arch.masks) (·.masks) (·.masks_cases),
    by_move (f := fun q => q.arch.controls) (·.controls) (·.controls_cases),
    by_move (f := fun q => q.arch.cntvct) (·.cntvct) (·.cntvct_cases), ?level,
    by_move (f := fun q => q.arch.pend) (·.pend) (·.pend_cases),
    by_move (f := fun q => q.arch.edbgrq) (·.edbgrq) (·.edbgrq_cases),
    by_move (f := fun q => q.arch.capture) (·.capture) (·.capture_cases),
    by_move (f := fun q => q.arch.profiling) (·.profiling) (·.profiling_cases), ?syncProfiling,
    by_move (f := fun q => q.inputs) (·.inputs) (·.inputs_cases)⟩
  case level =>
    refine step_changed (f := fun q => q.arch.el) h hp hp' (fun i _ _ _ ho => ?_) fun _ _ ho => ho.el_cases
    exact ho.el_cases.imp_right fun ⟨k, hk, ht, _⟩ => .inr (.inr (.inr (.inr ⟨k, hk, ht⟩)))
  case syncProfiling =>
    refine step_changed (f := fun q => q.arch.syncProfiling) h hp hp' (fun i hm _ _ ho => ?_)
      fun _ _ ho => ?_
    · exact ho.syncProfiling_cases.imp_right fun e => .inr (.inr (.inr ⟨hm, e⟩))
    · rcases ho.syncProfiling_cases with e | e | e | e
      · exact .inl e
      · exact .inr (.inl e)
      · exact .inr (.inr (.inl e))
      · exact .inr (.inr (.inr (.inl e)))

end Sys2Proof.Proofs

/-! SEV and SEVL (41_send_event.md R77 to R83). -/

namespace Sys2Proof.Proofs

open Sys2Proof.Machine

/-! ### How often a pair is sent -/

theorem nodup_sevPairs (n q : Nat) : (sevPairs n q).Nodup :=
  List.nodup_range.map fun _ _ h => (Prod.mk.inj h).1

theorem nodup_broadcastPairs (n p : Nat) : (broadcastPairs n p).Nodup :=
  (List.nodup_range.filter _).map fun _ _ h => (Prod.mk.inj h).1

theorem count_sevPairs (n q p : Nat) (c : Cause) :
    (sevPairs n q).count (p, c) = if p < n ∧ c = .sev q then 1 else 0 := by
  rw [(nodup_sevPairs n q).count]
  simp only [mem_sevPairs]

theorem count_broadcastPairs (n q p : Nat) (c : Cause) :
    (broadcastPairs n q).count (p, c) = if p < n ∧ p ≠ q ∧ c = .impdef then 1 else 0 := by
  rw [(nodup_broadcastPairs n q).count]
  simp only [mem_broadcastPairs]

/-- Settles O21. -/
theorem sevSignalsEveryPE : Obligations.SevSignalsEveryPE := by
  intro s pe hr
  refine ⟨_, execSev_of_running hr, fun p c => ?_, State.setActing_acting? (s := s.signal _) hr.1,
    fun q hq => State.setActing_other (s := s.signal _) hq, fun _ => rfl, rfl, rfl, rfl, rfl⟩
  rw [State.setActing_inflight, State.signal_inflight, List.count_append, count_sevPairs]

/-- Settles O22. -/
theorem sevlSetsLocalEventRegister : Obligations.SevlSetsLocalEventRegister := by
  intro s pe hr
  refine ⟨_, execSevl_of_running hr, fun p c => ?_, State.setActing_acting? (s := s.signal _) hr.1,
    fun q hq => State.setActing_other (s := s.signal _) hq, fun _ => rfl, rfl, rfl, rfl, rfl⟩
  rw [State.setActing_inflight, State.signal_inflight, List.count_append]
  cases hb : s.draw.sevlBroadcast
  · simp
  · simp [count_broadcastPairs]

/-- Settles O24: SEV leaves the Event Register at 0, and its own event waits in INFLIGHT. -/
theorem sevThenWfeMaySuspend : Obligations.SevThenWfeMaySuspend := by
  intro s pe d hw her ht hd
  obtain ⟨t, hsev, hcount, hacting, -, -, hcfg, hturn, -, -⟩ := sevSignalsEveryPE s pe hw.1
  have hready : State.WaitReady { t with draw := d } (pe.advance s.draw) :=
    ⟨⟨hacting, hw.1.2⟩, fun hf => hw.2 (hcfg ▸ hf)⟩
  have hnone : (pe.advance s.draw).trapTarget t.config .wfe = none := by
    rw [hcfg]
    exact ht
  have hsuspends := (waitForEventSuspends { t with draw := d } _ hready her hd).1 hnone
  have hsent : (s.turn.pe, Cause.sev s.turn.pe) ∈ t.inflight := by
    have hlt := State.acting?_lt hw.1.1
    exact List.count_pos_iff.mp (by simp [hcount, hlt])
  exact ⟨t, _, _, hsev, hsuspends, State.setActing_acting? hacting, rfl, hsent⟩

/-! ### SEVL, then a wait -/

/-- What SEVL leaves until the PE waits: its Event Register is 1, and it is not suspended in WFE. -/
def Armed (p : Nat) (s : State) : Prop :=
  ∃ pe, s.pes[p]? = some pe ∧ pe.arch.er = 1#1 ∧ pe.lp.kind ≠ .wfe

/-- Only WFE and WFET suspend a PE in WFE. -/
theorem ExecOutcome.enters_wfe {c : Config} {d : Draw} {pe pe' : PE} {i : Instr}
    (h : ExecOutcome c d pe i pe') (hk : pe'.lp.kind = .wfe) :
    pe.lp.kind = .wfe ∨ i = .wfe ∨ ∃ r, i = .wfet r := by
  cases h with
  | suspends ha => exact .inr (ha.waits.instr_of_event (kind_eq_wfe_iff.mp hk))
  | delays ha => exact .inr (ha.waits.instr_of_event (kind_eq_wfe_iff.mp hk))
  | sev | sevl => exact .inl hk
  | profiling | clears | completes | traps => cases hk

theorem MoveOutcome.enters_wfe {c : Config} {d : Draw} {pe pe' : PE} {m : Move}
    (h : MoveOutcome c d pe m pe') (hk : pe'.lp.kind = .wfe) : pe.lp.kind = .wfe := by
  cases h with
  | environment a => rwa [(pe.environment_lp c a).1] at hk
  | wakenByEvent | wakes | delayedTrap | losesPower | resets | takesAsync => cases hk
  | _ => exact hk

theorem armed_of_execSevl {s t : State} (h : exec .sevl s = .next t) : Armed s.turn.pe t := by
  obtain ⟨pe, hr⟩ := exec_running h
  cases (execSevl_of_running hr).symm.trans h
  exact ⟨_, State.setActing_acting? (s := s.signal _) hr.1, rfl, by simp [kind_of_running hr]⟩

/-- A PE that executes no WFE or WFET, is not reset and does not lose power stays armed. -/
theorem Armed.step {s t : State} {p : Nat} (ha : Armed p s) (hwait : ¬ s.RunsWaitForEvent p)
    (hkeep : s.turn.pe = p → s.turn.move ≠ .reset ∧ s.turn.move ≠ .powerDown)
    (h : step s = .next t) : Armed p t := by
  obtain ⟨pe, hp, her, hk⟩ := ha
  obtain ⟨pe', hp'⟩ := (step_getElem? h).mp ⟨pe, hp⟩
  refine ⟨pe', hp', ?_⟩
  rcases step_outcome h hp hp' with rfl | ⟨rfl, ⟨i, hm, hr, hf, ho⟩ | ⟨-, ho⟩⟩
  · exact ⟨her, hk⟩
  · have hturn : s.turn = { pe := s.turn.pe, move := .execute } := by rw [← hm]
    have no_wait : ¬ (i = .wfe ∨ ∃ r, i = .wfet r) := by
      rintro (rfl | ⟨r, rfl⟩)
      · exact hwait ⟨hturn, pe, hr, .inl hf⟩
      · exact hwait ⟨hturn, pe, hr, .inr ⟨r, hf⟩⟩
    refine ⟨?_, fun hk' => (ho.enters_wfe hk').elim hk no_wait⟩
    rcases ho.er_cases with e | ⟨hi, -⟩ | ⟨-, e⟩
    · exact e.trans her
    · exact absurd hi no_wait
    · exact e
  · obtain ⟨hreset, hpower⟩ := hkeep rfl
    refine ⟨?_, fun hk' => hk (ho.enters_wfe hk')⟩
    rcases ho.er_cases with e | ⟨-, -, hw | e⟩ | ⟨-, -, -, e⟩ | hm | ⟨hm, -⟩
    · exact e.trans her
    · exact absurd hw hk
    · exact e
    · exact e
    · exact absurd hm hreset
    · exact absurd hm hpower

theorem Armed.reaches {s t : State} {p : Nat} (ha : Armed p s) (h : s.ReachesBeforeWait p t) :
    Armed p t := by
  induction h with
  | refl => exact ha
  | @step u v turn draw _ hwait hkeep hstep ih =>
    exact Armed.step (s := u.withChoice turn draw) ih hwait hkeep hstep

/-- Settles O23: the PE stays armed until it waits. -/
theorem sevlThenWaitNeverSuspends : Obligations.SevlThenWaitNeverSuspends := by
  intro s t u pe d hsevl hreach hready
  obtain ⟨q, hq, her, -⟩ := (armed_of_execSevl hsevl).reaches hreach
  cases hq.symm.trans hready.1.1
  obtain ⟨hwfe, hwfet⟩ := exec_event_of_set hready her
  have hn : pe.handover = none := handover_of_running hready.1
  exact ⟨_, _, hwfe, hwfet, State.setActing_acting? hready.1.1, rfl, hn, rfl, rfl⟩

end Sys2Proof.Proofs

/-! Progress along an infinite run, under the premises of 70_reset_and_hazards.md R149. -/

namespace Sys2Proof.Proofs

open Sys2Proof.Machine

/-! ### An event in flight -/

/-- A move leaves an event in flight unless it delivers that event, or resets its target. -/
theorem mem_inflightAfter_of_mem {p q : Nat} {c : Cause} {l : List (Nat × Cause)} (d : Draw) (m : Move)
    (h : (p, c) ∈ l) :
    (p, c) ∈ inflightAfter q d m l ∨ (q = p ∧ (m = .deliver c ∨ m = .reset)) := by
  cases m with
  | deliver e =>
    by_cases heq : (p, c) = (q, e)
    · cases heq
      exact .inr ⟨rfl, .inl rfl⟩
    · exact .inl ((List.mem_erase_of_ne heq).mpr h)
  | reset =>
    by_cases hq : p = q
    · exact .inr ⟨hq.symm, .inr rfl⟩
    · exact .inl (mem_keepInflight_of_ne hq h)
  | env a =>
    simp only [inflightAfter]
    split
    · exact .inl (List.mem_append_left _ h)
    · exact .inl h
  | execute | wake | delayedTrap | becomeIdle | signalIdle | serviceCapture | powerDown
  | takeAsync | enterHandler | exceptionReturn => exact .inl h

/-- An instruction takes no event out of INFLIGHT. -/
theorem exec_keeps_event {i : Instr} {s u : State} {e : Nat × Cause} (h : exec i s = .next u)
    (he : e ∈ s.inflight) : e ∈ u.inflight := by
  obtain ⟨pe, -, hc⟩ := exec_cases h
  rcases hc with ⟨w, th, -, rfl⟩ | ⟨w, th, -, rfl⟩ | ⟨-, rfl⟩ | ⟨-, rfl⟩
  · exact he
  · exact he
  · exact List.mem_append_left _ he
  · exact List.mem_append_left _ he

/-- An event in flight stays there unless it is delivered, or its target is reset. -/
theorem step_keeps_event {s t : State} {p : Nat} {c : Cause} (h : step s = .next t)
    (hc : (p, c) ∈ s.inflight) :
    (p, c) ∈ t.inflight ∨ (s.turn.pe = p ∧ (s.turn.move = .deliver c ∨ s.turn.move = .reset)) := by
  rcases step_cases h with ⟨pe, i, u, -, -, -, hu, rfl⟩ | ⟨-, rfl⟩
  · rw [State.rollOver_inflight]
    exact .inl (exec_keeps_event hu hc)
  · rw [State.rollOver_inflight]
    rcases s.act_cases s.turn.move with e | ⟨pe, -, -, e⟩ <;> rw [e]
    · exact .inl hc
    · exact mem_inflightAfter_of_mem _ _ hc

/-- A PE in WFE that gets its event, or is reset, runs after that step. -/
theorem runs_after_delivery {s t : State} {p : Nat} {pe pe' : PE} {c : Cause} (h : step s = .next t)
    (hp : s.pes[p]? = some pe) (hp' : t.pes[p]? = some pe') (hk : pe.lp.kind = .wfe)
    (hc : (p, c) ∈ s.inflight) (hpe : s.turn.pe = p)
    (hm : s.turn.move = .deliver c ∨ s.turn.move = .reset) : pe'.lp.kind = .run := by
  subst hpe
  rcases hm with hm | hm
  · cases ((deliveryByKind s pe c hp hm hc).1 hk).symm.trans h
    cases (rollOver_acting (s := { s with inflight := _ }) hp).symm.trans hp'
    rfl
  · cases (step_reset hp hm).symm.trans h
    cases (rollOver_acting (s := { s with inflight := _ }) hp).symm.trans hp'
    rfl

/-- Settles O59: while the PE stays in WFE its event stays in flight, and the step that delivers it, or
resets the PE, ends the suspension. -/
theorem eventInFlightEndsWait : Obligations.EventInFlightEndsWait := by
  intro r turn draw n p pe c hrun hfair hp hk hc
  by_contra hno
  have stays : ∀ m q, n ≤ m → (r m).pes[p]? = some q → q.lp.kind = .wfe := fun m q hm hq =>
    by_contra fun hne => hno ⟨m, q, hm, hq, hne⟩
  have no_delivery : ∀ m q, n ≤ m → (r m).pes[p]? = some q → (p, c) ∈ (r m).inflight →
      ¬ ((turn m).pe = p ∧ ((turn m).move = .deliver c ∨ (turn m).move = .reset)) := by
    rintro m q hm hq hin ⟨hpe, hmove⟩
    obtain ⟨q', hq'⟩ := (step_getElem? (hrun m)).mp ⟨q, hq⟩
    have hr := runs_after_delivery (hrun m) hq hq' (stays m q hm hq) hin hpe hmove
    simp [stays (m + 1) q' (by omega) hq'] at hr
  have waits : ∀ m, n ≤ m → (∃ q, (r m).pes[p]? = some q) ∧ (p, c) ∈ (r m).inflight := by
    intro m hm
    induction m, hm using Nat.le_induction with
    | base => exact ⟨⟨pe, hp⟩, hc⟩
    | succ m hm ih =>
      obtain ⟨⟨q, hq⟩, hin⟩ := ih
      exact ⟨(step_getElem? (hrun m)).mp ⟨q, hq⟩,
        (step_keeps_event (hrun m) hin).resolve_right (no_delivery m q hm hq hin)⟩
  obtain ⟨m, hm, hturn⟩ := hfair n p c hc
  obtain ⟨⟨q, hq⟩, hin⟩ := waits m hm
  refine no_delivery m q hm hq hin ?_
  rcases hturn with e | e <;> simp [e]

/-! ### A threshold -/

theorem config_eq_of_isRun {r : Nat → State} {turn : Nat → Turn} {draw : Nat → Draw}
    (hrun : IsRun r turn draw) {n m : Nat} (h : n ≤ m) : (r m).config = (r n).config := by
  induction m, h using Nat.le_induction with
  | base => rfl
  | succ m _ ih => exact (step_config (hrun m)).trans ih

/-- A PE whose kind stays what it is in a suspension keeps its whole record. -/
theorem step_lp_of_kind {s t : State} {p : Nat} {pe pe' : PE} (h : step s = .next t)
    (hp : s.pes[p]? = some pe) (hp' : t.pes[p]? = some pe')
    (hk : pe.lp.kind = .wfe ∨ pe.lp.kind = .wfi) (heq : pe'.lp.kind = pe.lp.kind) :
    pe'.lp = pe.lp := by
  have hrun : pe.lp.kind ≠ .run := by rcases hk with hk | hk <;> simp [hk]
  rcases step_lp h hp hp' hrun with e | ⟨-, -, ⟨e, -⟩ | ⟨e, -, hw, -⟩⟩
  · exact e
  · exact absurd (heq.symm.trans (congrArg LowPower.kind e)) hrun
  · simp [heq, hw] at e

theorem counterOf_eq {s : State} {p : Nat} {pe : PE} (h : s.pes[p]? = some pe) :
    s.counterOf p = pe.arch.cntvct.toNat := by
  simp [State.counterOf, h]

/-- A wake step at a suspended PE makes it run. -/
theorem runs_after_wake {s t : State} {pe pe' : PE} (h : step s = .next t)
    (hp : s.acting? = some pe) (hm : s.turn.move = .wake) (hk : pe.lp.kind = .wfe ∨ pe.lp.kind = .wfi)
    (hp' : t.pes[s.turn.pe]? = some pe') : pe'.lp.kind = .run := by
  cases (wakeStepAlwaysEnabled s pe hp hm hk).symm.trans h
  cases (rollOver_acting hp).symm.trans hp'
  rfl

/-- Settles O60: the PE keeps its threshold while it is suspended, the counter reaches it and stays
there, so the wake stays owed and is taken. -/
theorem timeoutEndsWait : Obligations.TimeoutEndsWait := by
  intro r turn draw n p pe T hrun hfair hprogress hmono hfeat hp hk hT
  have hsusp : pe.lp.kind = .wfe ∨ pe.lp.kind = .wfi := hk.imp_right And.left
  by_contra hno
  have stays : ∀ m q, n ≤ m → (r m).pes[p]? = some q → q.lp.kind = pe.lp.kind := fun m q hm hq =>
    by_contra fun hne => hno ⟨m, q, hm, hq, hne⟩
  have keeps : ∀ m, n ≤ m → ∃ q, (r m).pes[p]? = some q ∧ q.lp = pe.lp := by
    intro m hm
    induction m, hm using Nat.le_induction with
    | base => exact ⟨pe, hp, rfl⟩
    | succ m hm ih =>
      obtain ⟨q, hq, hlp⟩ := ih
      obtain ⟨q', hq'⟩ := (step_getElem? (hrun m)).mp ⟨q, hq⟩
      have hkind : q'.lp.kind = q.lp.kind := (stays _ q' (by omega) hq').trans (stays m q hm hq).symm
      exact ⟨q', hq', (step_lp_of_kind (hrun m) hq hq' (hlp ▸ hsusp) hkind).trans hlp⟩
  obtain ⟨k, hnk, hreached⟩ := hprogress T n
  have owed : ∀ m, k ≤ m → (r m).WakeOwedFrom p (ArrivedSuspended r p m) := by
    intro m hm
    obtain ⟨q, hq, hlp⟩ := keeps m (by omega)
    have hcfg := config_eq_of_isRun hrun (show n ≤ m by omega)
    have hcount : T.toNat ≤ q.arch.cntvct.toNat := by
      rw [← counterOf_eq hq]
      exact hreached.trans (monotone_nat_of_le_succ hmono hm)
    refine State.wakeOwedFrom_of_timeout _ hq (by rw [hlp, hcfg]; exact hk) ?_
    exact timeoutWakes_iff.mpr ⟨hcfg ▸ hfeat, T, hlp ▸ hT, hcount⟩
  obtain ⟨m, hm, hturn⟩ := hfair k owed
  obtain ⟨q, hq, hlp⟩ := keeps m (by omega)
  obtain ⟨q', hq'⟩ := (step_getElem? (hrun m)).mp ⟨q, hq⟩
  have hstep := hrun m
  rw [hturn] at hstep
  have hwoken := runs_after_wake hstep hq rfl (hlp ▸ hsusp) hq'
  rcases hsusp with hs | hs <;> simp [stays (m + 1) q' (by omega) hq', hs] at hwoken

end Sys2Proof.Proofs
